-- ==== Sys2Proof/Word.lean ====
section
/-! DEFINITION. The word types of the spec: the 32-bit operation word (30_encoding.md R77), the 8-bit
channel value (R75) and a level or data bit (00_scope.md R17). -/

namespace Sys2Proof

/-- An operation word, 32 bits, bit 0 least significant (R17, R77). -/
abbrev Word := BitVec 32

/-- A channel value or a byte on the wire, an unsigned 8-bit value (R75). -/
abbrev Byte := BitVec 8

/-- A level on the line (`true` high, `false` low) or a bit of data (`true` 1, `false` 0) (R17). -/
abbrev Level := Bool

end Sys2Proof
end

