-- ==== Sys2Proof/Config.lean ====
section
/-! DEFINITION. The build-time parameters of the block (00_scope.md R7 to R16): the record `Cfg` that the
step relation takes, the counter width, and the spec's own test configuration TC. The quantities derived
from them (`T_BIT`, `T_LATCH`, `TH`, `TL`, `D_FRAME`) are in Machine/Operands.lean. -/

namespace Sys2Proof

/-- A closed range of cycle counts that a device accepts for one duration. -/
structure Range where
  /-- the least count accepted -/
  least : Nat
  /-- the greatest count accepted -/
  greatest : Nat
  deriving DecidableEq, Repr

/-- `DEVICE_WINDOW` (R16): the LED device's tolerance window. No rule of the step relation reads it.
DESIGN CHOICE (safe), log entry 15: the spec gives the window no shape; one range for each quantity that
42_frame_transmitter.md R165(a) lists. -/
structure DeviceWindow where
  /-- the range accepted for `T0H` -/
  t0h : Range
  /-- the range accepted for `T0L` -/
  t0l : Range
  /-- the range accepted for `T1H` -/
  t1h : Range
  /-- the range accepted for `T1L` -/
  t1l : Range
  /-- the range accepted for `T_BIT` -/
  tBit : Range
  deriving DecidableEq, Repr

/-- The parameter record `Cfg` (R7): fixed when the block is built. `N_LEDS` is 4 for this hardware and
may be any number from 1 in a model (R8); the other values are OPEN (R9, R12 to R14, R16). -/
structure Cfg where
  /-- `N_LEDS` (R8) -/
  nLeds : Nat
  /-- `T0H`, the high time of a 0 bit in `clk` cycles (R9) -/
  t0h : Nat
  /-- `T0L`, the low time of a 0 bit (R9) -/
  t0l : Nat
  /-- `T1H`, the high time of a 1 bit (R9) -/
  t1h : Nat
  /-- `T1L`, the low time of a 1 bit (R9) -/
  t1l : Nat
  /-- `F_CLK`, the frequency of `clk` in Hz (R12) -/
  fClk : Nat
  /-- `LATCH_MS`, the whole number of milliseconds of the latch (R13) -/
  latchMs : Nat
  /-- `T_RESET_MIN`, the LED device's least reset/latch interval in cycles (R14) -/
  tResetMin : Nat
  /-- `DEVICE_WINDOW` (R16) -/
  deviceWindow : DeviceWindow
  deriving DecidableEq, Repr

/-- `W_CNT`, the width in bits of the phase counter: 28 for this hardware (R15). -/
def wCnt : Nat := 28

/-- The largest count `cnt` can hold, `2^W_CNT - 1` (R11, R13). -/
def maxCount : Nat := 2 ^ wCnt - 1

/-- TC, the test configuration of 00_scope.md, the spec's own choice and not a value of the hardware.
The spec's TC has no DEVICE_WINDOW (OPEN, R16): the one here, which accepts exactly TC's own durations, is the
model's. DESIGN CHOICE (safe), log entry 15. -/
def configTC : Cfg where
  nLeds := 4
  t0h := 3
  t0l := 9
  t1h := 6
  t1l := 6
  fClk := 10000000
  latchMs := 1
  tResetMin := 500
  deviceWindow :=
    { t0h := ⟨3, 3⟩, t0l := ⟨9, 9⟩, t1h := ⟨6, 6⟩, t1l := ⟨6, 6⟩, tBit := ⟨12, 12⟩ }

end Sys2Proof
end

