-- ==== Sys2Proof/Machine/State.lean ====
section
/-! DEFINITION. State: the block's record σ (10_state.md R20 to R29), the execution record E of the
operation semantics (00_scope.md R18), the ports' inputs (R30), and the state of a run of the model, which
bundles them with the configuration, the operation words still to run and the host's coming inputs
(log entry 1). Then the reasons for which the model stops (60_exceptions.md R204 to R206), and reset. -/

namespace Sys2Proof.Machine

/-- The top-level state `fsm` (R21): IDLE, TX or LATCH. The value 3 is no value of the type. -/
inductive Fsm where
  | idle
  | tx
  | latch
  deriving DecidableEq, Repr

/-- Which half of the symbol is being sent (R25). -/
inductive Phase where
  | hi
  | lo
  deriving DecidableEq, Repr

/-- A Color Triple in the source's logical order (R27, 30_encoding.md R75). -/
structure ColorTriple where
  /-- red -/
  r : Byte
  /-- green -/
  g : Byte
  /-- blue -/
  b : Byte
  deriving DecidableEq, Repr

/-- A Frame: the Color Triples of the chain, LED 0 first (R19, R27). Its length is `N_LEDS` in every
state the model admits. -/
abbrev Frame := List ColorTriple

/-- The block's state σ: exactly the eight fields of R20. -/
structure Block where
  /-- top-level state (R21) -/
  fsm : Fsm
  /-- index of the LED being sent, 0 to `N_LEDS - 1` (R22) -/
  led : Nat
  /-- index of the channel being sent, in wire order, 2 bits wide (R23) -/
  ch : Fin 4
  /-- index of the bit being sent, 3 bits wide, counting down from 7 (R24) -/
  bit : Fin 8
  /-- half of the current symbol (R25) -/
  phase : Phase
  /-- cycles left in the current phase, the current one counted, at most `2^W_CNT - 1` (R26) -/
  cnt : Nat
  /-- the frame buffer, `none` when invalid (R27) -/
  fb : Option Frame
  /-- the output level register (R28) -/
  pin : Level
  deriving DecidableEq, Repr

/-- One stretch of a trace: `level` in every cycle `k` with `start ≤ k < stop`. -/
structure Span where
  /-- first cycle of the stretch -/
  start : Nat
  /-- first cycle after the stretch -/
  stop : Nat
  /-- the level in it -/
  level : Level
  deriving DecidableEq, Repr

/-- A trace, the partial map from cycle numbers to levels of R18, held as spans, the latest first
(log entry 9). Read it through `traceAt`. -/
abbrev Trace := List Span

/-- The execution record `E = (pin, t, trace, fb)` an operation acts on (R18). -/
structure ExecRec where
  /-- the current level -/
  pin : Level
  /-- the next cycle number -/
  t : Nat
  /-- the levels of the cycles passed -/
  trace : Trace
  /-- the frame buffer, which only TRANSMIT_FRAME reads -/
  fb : Option Frame
  deriving DecidableEq, Repr

/-- What the host presents on the input ports in one cycle (R30). `frameData` is the number on the
`frame_data` bus; the port is its low `24 * N_LEDS` bits (log entry 10). -/
structure Inputs where
  /-- synchronous reset, active high -/
  rst : Bool
  /-- request to transmit one frame -/
  start : Bool
  /-- the frame to transmit, packed as in 30_encoding.md R76 -/
  frameData : Nat
  deriving DecidableEq, Repr

/-- The state of a run of the model. Only `blk` is state of the hardware (R20, R39); the other fields are
what the spec passes to the step relation and to the operation semantics as arguments (log entry 1). -/
structure State where
  /-- the build-time parameters (00_scope.md R7); no step changes them -/
  cfg : Cfg
  /-- the block's state σ (R20) -/
  blk : Block
  /-- the execution record of a model-only run of operations (00_scope.md R18, 30_encoding.md R87) -/
  record : ExecRec
  /-- the operation words still to run, the next one first (30_encoding.md R77, R87) -/
  ops : List Word
  /-- what the host presents in the coming cycles, the current cycle first (42_frame_transmitter.md R170) -/
  host : List Inputs
  deriving DecidableEq, Repr

/-- The model's faults (60_exceptions.md R206: "The model faults in exactly one case"). -/
inductive Fault where
  /-- A FrameRead of `fb = none`: raised by TRANSMIT_FRAME when the record holds no frame
  (42_frame_transmitter.md R151, 93_implementation_defined.md U5). Safe: the spec says the model faults and
  that no hardware state does this. A clock edge raises it too for a read outside the frame, which no
  admitted state performs (20_memory.md R51). -/
  | frameReadNone
  deriving DecidableEq, Repr

/-- The model's refusals. -/
inductive Refusal where
  /-- An operation that has no meaning yet; raised by `exec`'s arms only. Safe. -/
  | notModelled (mnemonic : String)
  /-- A pending operation word has a reserved opcode (30_encoding.md R81, 60_exceptions.md R204); raised by
  the fetch, for the whole run. Safe. -/
  | reservedOpcode
  /-- A pending operation word has reserved operand bits set (30_encoding.md R82, R204); raised by the
  fetch, for the whole run. Safe. -/
  | reservedBits
  /-- `T0H + T0L ≠ T1H + T1L` (00_scope.md R10, R205); raised by `step`. Safe. -/
  | bitPeriodUnequal
  /-- A duration that must be at least 1 is 0 (00_scope.md R11, R13, R14, R205); raised by `step`. Safe. -/
  | zeroDuration
  /-- A count does not fit in `W_CNT` bits (00_scope.md R11, R13, R205); raised by `step`. Safe. -/
  | countTooWide
  /-- `T0H = T1H` (00_scope.md R11, R205); raised by `step`. Safe. -/
  | symbolsIndistinct
  /-- `T_LATCH < T_RESET_MIN` (00_scope.md R13, R205); raised by `step`. Safe. -/
  | latchTooShort
  /-- `N_LEDS = 0` (00_scope.md R8, R205); raised by `step`. Safe. -/
  | noLeds
  /-- `F_CLK` is no multiple of 1000 (00_scope.md R12, R205); raised by `step`. Safe. -/
  | clockNotMsMultiple
  /-- A block state that breaks 10_state.md R38 (60_exceptions.md R205), raised by a clock edge without
  reset; or a record whose frame does not have `N_LEDS` entries (10_state.md R27), raised by
  TRANSMIT_FRAME. Safe: no hardware is in such a state. -/
  | illFormedState
  deriving DecidableEq, Repr

/-- `ResetState` (R29). -/
def Block.reset : Block where
  fsm := .idle
  led := 0
  ch := 0
  bit := 7
  phase := .hi
  cnt := 0
  fb := none
  pin := false

/-- The record a run of operations starts from unless the state says otherwise: level low, cycle 0, empty
trace, no frame. DESIGN CHOICE (unsafe), log entry 8. -/
def ExecRec.reset : ExecRec where
  pin := false
  t := 0
  trace := []
  fb := none

/-- The machine right after reset (70_reset_and_hazards.md R230, R233): the block in `ResetState`, no
operation word pending and no input scripted. The parameters are OPEN; `State.reset` holds TC, a DESIGN
CHOICE (unsafe), log entry 2, on which no statement rests. -/
def State.reset : State where
  cfg := configTC
  blk := Block.reset
  record := ExecRec.reset
  ops := []
  host := []

end Sys2Proof.Machine
end

