-- ==== Sys2Proof/Machine/Operands.lean ====
section
/-! DEFINITION. The operands of the operations and of the clock edge: the quantities derived from the
configuration (00_scope.md R10 to R15, R17), the unpacking of `frame_data` (30_encoding.md R76), the reads of
the frame buffer (20_memory.md R51) and the bits of a byte and of a frame in wire order (R55 to R57, R125). -/

namespace Sys2Proof.Machine

/-! ### Durations -/

/-- `TH(b)` (R17): the high time of a bit. -/
def th (c : Cfg) (b : Level) : Nat := if b then c.t1h else c.t0h

/-- `TL(b)` (R17): the low time of a bit. -/
def tl (c : Cfg) (b : Level) : Nat := if b then c.t1l else c.t0l

/-- `T_BIT = T0H + T0L` (R10). -/
def tBit (c : Cfg) : Nat := c.t0h + c.t0l

/-- `CYCLES_PER_MS = F_CLK / 1000` (R12). Rounded down where R12's constraint fails, which only a refused
configuration shows (DESIGN CHOICE, safe, log entry 21). -/
def cyclesPerMs (c : Cfg) : Nat := c.fClk / 1000

/-- `T_LATCH = LATCH_MS * CYCLES_PER_MS` (R13). -/
def tLatch (c : Cfg) : Nat := c.latchMs * cyclesPerMs c

/-- `D_FRAME = 24 * N_LEDS * T_BIT + T_LATCH` (42_frame_transmitter.md R152). -/
def dFrame (c : Cfg) : Nat := 24 * c.nLeds * tBit c + tLatch c

/-! ### The frame_data port -/

/-- The `i`-th LED's field of `frame_data`, red highest (R76). -/
def unpackLed {w : Nat} (fd : BitVec w) (i : Nat) : ColorTriple where
  r := fd.extractLsb' (24 * i + 16) 8
  g := fd.extractLsb' (24 * i + 8) 8
  b := fd.extractLsb' (24 * i) 8

/-- `Unpack(fd)` (R76). -/
def unpack (n : Nat) (fd : BitVec (24 * n)) : Frame := (List.range n).map (unpackLed fd)

/-- The value on the `frame_data` port: the low `24 * N_LEDS` bits of the number on the bus
(10_state.md R30; log entry 10). -/
def portValue (c : Cfg) (inp : Inputs) : BitVec (24 * c.nLeds) := BitVec.ofNat (24 * c.nLeds) inp.frameData

/-- `Unpack(frame_data)` of the inputs of a cycle (20_memory.md R52). -/
def sampledFrame (c : Cfg) (inp : Inputs) : Frame := unpack c.nLeds (portValue c inp)

/-! ### Reads of the frame buffer -/

/-- The channel byte of a Color Triple in wire order: 0 green, 1 red, 2 blue (R51, R56). -/
def wireChannel (p : ColorTriple) (c : Fin 4) : Option Byte :=
  match c with
  | 0 => some p.g
  | 1 => some p.r
  | 2 => some p.b
  | 3 => none

/-- `FrameRead(i, c)` (R51): `none` where its requirement `fb ≠ none`, `i < N_LEDS`, `c ≤ 2` fails. -/
def frameRead (fb : Option Frame) (i : Nat) (c : Fin 4) : Option Byte :=
  fb.bind fun F => (F[i]?).bind fun p => wireChannel p c

/-- `WireBit(i, c, k) = FrameRead(i, c)[k]` (R51). -/
def wireBit (fb : Option Frame) (i : Nat) (c : Fin 4) (k : Fin 8) : Option Level :=
  (frameRead fb i c).map fun v => v.getLsbD k.val

/-- `FrameBit(fb, j)` (41_sk6812_encoder.md R125): the `j`-th bit of a frame on the wire. -/
def frameBit (fb : Option Frame) (j : Nat) : Option Level :=
  wireBit fb (j / 24) ⟨j % 24 / 8, by omega⟩ ⟨7 - j % 8, by omega⟩

/-! ### Bits and bytes in wire order -/

/-- The bits of a byte, most significant first (R55, R122). -/
def bitsMsbFirst (v : Byte) : List Level :=
  [v.getLsbD 7, v.getLsbD 6, v.getLsbD 5, v.getLsbD 4, v.getLsbD 3, v.getLsbD 2, v.getLsbD 1, v.getLsbD 0]

/-- The bytes of a Color Triple on the wire: green, red, blue (R56). -/
def ledBytes (p : ColorTriple) : List Byte := [p.g, p.r, p.b]

/-- `WireBytes(fb)` (R57): the wire byte sequence of a frame. -/
def wireBytes (F : Frame) : List Byte := F.flatMap ledBytes

/-- The bits of a frame in the order they go on the wire (R55 to R57). -/
def wireBits (F : Frame) : List Level := (wireBytes F).flatMap bitsMsbFirst

/-! ### The position in the frame -/

/-- The linear bit index `j = 24*led + 8*ch + (7 - bit)` (10_state.md R36). -/
def linearIndex (l : Nat) (c : Fin 4) (k : Fin 8) : Nat := 24 * l + 8 * c.val + (7 - k.val)

/-- `Last(σ)` (42_frame_transmitter.md R158). -/
def isLast (c : Cfg) (σ : Block) : Bool :=
  decide (σ.led + 1 = c.nLeds) && decide (σ.ch = 2) && decide (σ.bit = 0)

/-- `NextPos(l, c, k)` (R158): the position of the next bit. Applied only when not `Last`. -/
def nextPos (l : Nat) (c : Fin 4) (k : Fin 8) : Nat × Fin 4 × Fin 8 :=
  if 0 < k.val then (l, c, ⟨k.val - 1, by omega⟩)
  else if h : c.val < 2 then (l, ⟨c.val + 1, by omega⟩, 7)
  else (l + 1, 0, 7)

end Sys2Proof.Machine
end

