-- ==== Sys2Proof/Machine/Checks.lean ====
section
/-! DEFINITION. What the model refuses before it steps (60_exceptions.md R205): a configuration that breaks a
constraint of 00_scope.md R8 to R15, and a block state that breaks 10_state.md R38. -/

namespace Sys2Proof.Machine

/-- The counts the block loads into `cnt` (40_pulse_sequencer.md R109). -/
def loadedCounts (c : Cfg) : List Nat := [c.t0h, c.t0l, c.t1h, c.t1l, tLatch c]

/-- The reason for which a configuration is refused, `none` where it breaks no constraint (R205). Where it
breaks several, the first in the order in which R205 lists the reasons (DESIGN CHOICE, safe, log entry 4). Where `F_CLK` is
no multiple of 1000 the spec gives no `T_LATCH`; these checks read it with `CYCLES_PER_MS` rounded down (DESIGN CHOICE,
safe, log entry 21). -/
def cfgRefusal (c : Cfg) : Option Refusal :=
  if c.t0h + c.t0l ≠ c.t1h + c.t1l then some .bitPeriodUnequal
  else if 0 ∈ [c.t0h, c.t0l, c.t1h, c.t1l, c.latchMs, c.tResetMin] then some .zeroDuration
  else if (loadedCounts c).any (fun n => decide (maxCount < n)) then some .countTooWide
  else if c.t0h = c.t1h then some .symbolsIndistinct
  else if tLatch c < c.tResetMin then some .latchTooShort
  else if c.nLeds = 0 then some .noLeds
  else if c.fClk % 1000 ≠ 0 then some .clockNotMsMultiple
  else none

/-- Whether `fb` is an array of `N_LEDS` Color Triples (10_state.md R27). -/
def holdsFrame (c : Cfg) (fb : Option Frame) : Bool :=
  match fb with
  | none => false
  | some F => decide (F.length = c.nLeds)

/-- The count and level of a phase (R38): in `HI` the pin is 1 and `cnt ≤ TH(b)`, in `LO` the pin is 0 and
`cnt ≤ TL(b)`, where `b` is the bit being sent. -/
def phaseWf (c : Cfg) (σ : Block) : Bool :=
  match wireBit σ.fb σ.led σ.ch σ.bit with
  | none => false
  | some b =>
    match σ.phase with
    | .hi => σ.pin && decide (σ.cnt ≤ th c b)
    | .lo => !σ.pin && decide (σ.cnt ≤ tl c b)

/-- The invariants of 10_state.md R38 on a block state. -/
def blockWf (c : Cfg) (σ : Block) : Bool :=
  match σ.fsm with
  | .idle => decide (σ = Block.reset)
  | .tx =>
    holdsFrame c σ.fb && decide (σ.led < c.nLeds) && decide (σ.ch.val ≤ 2) && decide (1 ≤ σ.cnt) &&
      phaseWf c σ
  | .latch =>
    holdsFrame c σ.fb && !σ.pin && decide (1 ≤ σ.cnt) && decide (σ.cnt ≤ tLatch c) && isLast c σ &&
      decide (σ.phase = .lo)

end Sys2Proof.Machine
end

