-- ==== Sys2Proof/Machine/Flags.lean ====
section
/-! DEFINITION. The block has no flag and no condition code (10_state.md R35: "`busy` (rule R31) is the only
status bit"). This file holds that status bit and the output line, both functions of the state (R31, R32). -/

namespace Sys2Proof.Machine

/-- `busy` (R31): 1 iff `fsm ≠ IDLE`. -/
def busy (σ : Block) : Bool := decide (σ.fsm ≠ .idle)

/-- `dout` (R32): the level register. -/
def dout (σ : Block) : Level := σ.pin

end Sys2Proof.Machine
end

