-- ==== Sys2Proof/Machine/Ops.lean ====
section
/-! DEFINITION. The named operations over the execution record (00_scope.md R18, 40_pulse_sequencer.md R100 to
R108): reading and writing the trace, `PinWrite`, `Hold`, and the symbol, byte, LED, latch and frame built from
them (41_sk6812_encoder.md, 42_frame_transmitter.md R150, R151). The block has no exception and no return from
one (60_exceptions.md R200, R210, R211), so no operation here takes one. -/

namespace Sys2Proof.Machine

/-! ### The trace -/

/-- The level a trace gives to a cycle; `none` where it has no entry (R18). -/
def traceAt : Trace → Nat → Option Level
  | [], _ => none
  | p :: rest, k => if p.start ≤ k ∧ k < p.stop then some p.level else traceAt rest k

/-- Put a span in front of a trace: an empty span is dropped, and a span that touches the first one at the
same level is joined to it. -/
def consSpan (p : Span) (tr : Trace) : Trace :=
  if p.start < p.stop then
    match tr with
    | [] => [p]
    | q :: rest =>
      if q.stop = p.start ∧ q.level = p.level then ⟨q.start, p.stop, p.level⟩ :: rest else p :: q :: rest
  else tr

/-- The part of a span from cycle `hi` on. -/
def spanFrom (hi : Nat) (p : Span) : Span := ⟨max p.start hi, p.stop, p.level⟩

/-- The part of a span before cycle `lo`. -/
def spanBefore (lo : Nat) (p : Span) : Span := ⟨p.start, min p.stop lo, p.level⟩

/-- Whether a trace's first span is not empty and ends at or before cycle `lo`; true of an empty trace. -/
def endsBy : Trace → Nat → Bool
  | [], _ => true
  | p :: _, lo => decide (p.start < p.stop) && decide (p.stop ≤ lo)

/-- The trace updated at `k := l` for every `k` in `[lo, hi)` (R102). A write after the last span, the only
one a run from an empty trace makes, just adds the span. -/
def traceFill (tr : Trace) (lo hi : Nat) (l : Level) : Trace :=
  if lo < hi then
    if endsBy tr lo then consSpan ⟨lo, hi, l⟩ tr
    else (tr.map (spanFrom hi) ++ ⟨lo, hi, l⟩ :: tr.map (spanBefore lo)).foldr consSpan []
  else tr

/-- The canonical form of a trace: no empty span, spans apart and in falling order, and touching spans of
different levels. Two traces in this form that give every cycle the same level are equal. -/
def traceWf : Trace → Bool
  | [] => true
  | [p] => decide (p.start < p.stop)
  | p :: q :: rest =>
    decide (p.start < p.stop) &&
      (decide (q.stop < p.start) || (decide (q.stop = p.start) && decide (q.level ≠ p.level))) &&
      traceWf (q :: rest)

/-! ### The two primitives -/

/-- `PinWrite(l)` (R101): set the level. -/
def pinWrite (l : Level) (E : ExecRec) : ExecRec := { E with pin := l }

/-- `Hold(n)` (R102): keep the level for exactly `n` cycles (90_conflicts.md C2). -/
def hold (n : Nat) (E : ExecRec) : ExecRec :=
  { E with trace := traceFill E.trace E.t (E.t + n) E.pin, t := E.t + n }

/-! ### The composites -/

/-- One symbol (R120): high for `TH(b)`, then low for `TL(b)`. -/
def symbol (c : Cfg) (b : Level) (E : ExecRec) : ExecRec :=
  hold (tl c b) (pinWrite false (hold (th c b) (pinWrite true E)))

/-- Consecutive symbols, in order (R100, R71). -/
def symbols (c : Cfg) (bs : List Level) (E : ExecRec) : ExecRec := bs.foldl (fun E b => symbol c b E) E

/-- One byte, most significant bit first (R122). -/
def byteOut (c : Cfg) (v : Byte) (E : ExecRec) : ExecRec := symbols c (bitsMsbFirst v) E

/-- Consecutive bytes, in order. -/
def bytesOut (c : Cfg) (vs : List Byte) (E : ExecRec) : ExecRec := vs.foldl (fun E v => byteOut c v E) E

/-- One Color Triple in wire channel order, green, red, blue (R124). -/
def ledOut (c : Cfg) (p : ColorTriple) (E : ExecRec) : ExecRec := bytesOut c (ledBytes p) E

/-- The latch hold (R150). -/
def latchHold (c : Cfg) (E : ExecRec) : ExecRec := hold (tLatch c) (pinWrite false E)

/-- The LEDs of a frame in order, then the latch (R151). -/
def frameOut (c : Cfg) (F : Frame) (E : ExecRec) : ExecRec :=
  latchHold c (F.foldl (fun E p => ledOut c p E) E)

/-! ### The state of a run -/

/-- The state with another execution record. -/
def withRecord (s : State) (E : ExecRec) : State := { s with record := E }

/-- The state with other pending operation words. -/
def withOps (s : State) (ws : List Word) : State := { s with ops := ws }

/-- The state after a clock edge: another block state, and the next cycle's inputs in front. -/
def afterEdge (s : State) (σ : Block) : State := { s with blk := σ, host := s.host.tail }

end Sys2Proof.Machine
end

