-- ==== Sys2Proof/Machine/ClockEdge.lean ====
section
/-! DEFINITION. The cycle-level machine: one rising edge of `clk` (42_frame_transmitter.md R153 to R160,
70_reset_and_hazards.md R230). -/

namespace Sys2Proof.Machine

/-- The inputs of a cycle for which the host's script gives none: no reset, no start
(DESIGN CHOICE, safe, log entry 7). -/
def quietInputs : Inputs where
  rst := false
  start := false
  frameData := 0

/-- The inputs the host presents in the current cycle. -/
def inputsNow (s : State) : Inputs := s.host.headD quietInputs

/-- Whether a start request is accepted in this cycle (R153). -/
def accepts (σ : Block) (inp : Inputs) : Bool := !inp.rst && inp.start && decide (σ.fsm = .idle)

/-- Go on with the bit that a read of the frame buffer gives; fault where it gives none
(20_memory.md R51). -/
def withBit (b : Option Level) (f : Level → Block) : Host.Outcome Block Fault Refusal :=
  match b with
  | none => .fault .frameReadNone
  | some b => .next (f b)

/-- The first cycle of a symbol: the position, then `phase ← HI`, `cnt ← TH(b)`, `pin ← 1`
(R155, R157; 40_pulse_sequencer.md R106). -/
def beginSymbol (c : Cfg) (fb : Option Frame) (l : Nat) (ch : Fin 4) (k : Fin 8) :
    Host.Outcome Block Fault Refusal :=
  withBit (wireBit fb l ch k) fun b =>
    { fsm := .tx, led := l, ch := ch, bit := k, phase := .hi, cnt := th c b, fb := fb, pin := true }

/-- One cycle of a phase that is not its last: `cnt ← cnt - 1`. -/
def countDown (σ : Block) : Block := { σ with cnt := σ.cnt - 1 }

/-- Step in `IDLE` (R155): an accepted start takes the frame and begins its first symbol. -/
def stepIdle (c : Cfg) (σ : Block) (inp : Inputs) : Host.Outcome Block Fault Refusal :=
  if inp.start then beginSymbol c (some (sampledFrame c inp)) 0 0 7 else .next σ

/-- Step in `TX` with `phase = HI` (R156). -/
def stepHigh (c : Cfg) (σ : Block) : Host.Outcome Block Fault Refusal :=
  if 1 < σ.cnt then .next (countDown σ)
  else withBit (wireBit σ.fb σ.led σ.ch σ.bit) fun b => { σ with phase := .lo, cnt := tl c b, pin := false }

/-- Step in `TX` with `phase = LO` (R157). -/
def stepLow (c : Cfg) (σ : Block) : Host.Outcome Block Fault Refusal :=
  if 1 < σ.cnt then .next (countDown σ)
  else if isLast c σ then .next { σ with fsm := .latch, cnt := tLatch c }
  else
    let p := nextPos σ.led σ.ch σ.bit
    beginSymbol c σ.fb p.1 p.2.1 p.2.2

/-- Step in `LATCH` (R159). -/
def stepLatch (σ : Block) : Host.Outcome Block Fault Refusal :=
  if 1 < σ.cnt then .next (countDown σ) else .next Block.reset

/-- `Step(σ, in)` (R160). -/
def edge (c : Cfg) (σ : Block) (inp : Inputs) : Host.Outcome Block Fault Refusal :=
  if inp.rst then .next Block.reset
  else
    match σ.fsm with
    | .idle => stepIdle c σ inp
    | .tx =>
      match σ.phase with
      | .hi => stepHigh c σ
      | .lo => stepLow c σ
    | .latch => stepLatch σ

/-- One edge of the model's run: `Step` on the inputs of the current cycle. A block state that breaks R38 is
refused unless the cycle resets it (60_exceptions.md R205, 70_reset_and_hazards.md R230; DEDUCED, safe, log
entry 5). -/
def clockEdge (s : State) : Host.Outcome State Fault Refusal :=
  if !(inputsNow s).rst && !blockWf s.cfg s.blk then .refused .illFormedState
  else
    match edge s.cfg s.blk (inputsNow s) with
    | .next σ => .next (afterEdge s σ)
    | .fault r => .fault r
    | .refused r => .refused r

end Sys2Proof.Machine
end

