-- ==== Sys2Proof/Machine/FrameTransmitter.lean ====
section
/-! DEFINITION. LED_bit_bang_transmitter: the meanings of LATCH and TRANSMIT_FRAME
(42_frame_transmitter.md R150, R151). -/

namespace Sys2Proof.Machine

/-- LATCH (R150): PIN_WRITE 0, DELAY_CYCLES T_LATCH. -/
def execLatch (s : State) : Host.Outcome State Fault Refusal :=
  .next (withRecord s (latchHold s.cfg s.record))

/-- TRANSMIT_FRAME (R151): SEND_LED of each LED of the record's frame in order, then LATCH. A record with no
frame faults (93_implementation_defined.md U5). A record whose frame does not have `N_LEDS` entries is no
execution record of R18 and is refused (log entry 11). -/
def execTransmitFrame (s : State) : Host.Outcome State Fault Refusal :=
  match s.record.fb with
  | none => .fault .frameReadNone
  | some F =>
    if F.length = s.cfg.nLeds then .next (withRecord s (frameOut s.cfg F s.record))
    else .refused .illFormedState

end Sys2Proof.Machine
end

