-- ==== Sys2Proof/Machine/PulseSequencer.lean ====
section
/-! DEFINITION. GPIO_pulse_sequencer: the meanings of PIN_WRITE and DELAY_CYCLES (40_pulse_sequencer.md). -/

namespace Sys2Proof.Machine

/-- PIN_WRITE L (R101): `E with pin := L`; it takes zero cycles and writes no trace entry. -/
def execPinWrite (level : Level) (s : State) : Host.Outcome State Fault Refusal :=
  .next (withRecord s (pinWrite level s.record))

/-- DELAY_CYCLES N (R102): the level held for exactly `N` cycles; nothing for `N = 0` (R103). For an `N`
that has no encoding (`2^28` or more) the same formula applies; no word decodes to it (log entry 17). -/
def execDelayCycles (n : Nat) (s : State) : Host.Outcome State Fault Refusal :=
  .next (withRecord s (hold n s.record))

end Sys2Proof.Machine
end

