-- ==== Sys2Proof/Machine/Sk6812Encoder.lean ====
section
/-! DEFINITION. SK6812_encoder: the meanings of SEND_BIT, SEND_BYTE and SEND_LED (41_sk6812_encoder.md). -/

namespace Sys2Proof.Machine

/-- SEND_BIT B (R120): PIN_WRITE 1, DELAY_CYCLES TH(B), PIN_WRITE 0, DELAY_CYCLES TL(B). -/
def execSendBit (b : Level) (s : State) : Host.Outcome State Fault Refusal :=
  .next (withRecord s (symbol s.cfg b s.record))

/-- SEND_BYTE V (R122): SEND_BIT of bit 7 down to bit 0. -/
def execSendByte (v : Byte) (s : State) : Host.Outcome State Fault Refusal :=
  .next (withRecord s (byteOut s.cfg v s.record))

/-- SEND_LED R G B (R124): SEND_BYTE G, SEND_BYTE R, SEND_BYTE B. -/
def execSendLed (r g b : Byte) (s : State) : Host.Outcome State Fault Refusal :=
  .next (withRecord s (ledOut s.cfg ⟨r, g, b⟩ s.record))

end Sys2Proof.Machine
end

