-- ==== Sys2Proof/Syntax.lean ====
section
/-! DEFINITION. The seven operations of the block (30_encoding.md R80, opcode_table.json), with the
operands of their formats (R78, R79). -/

namespace Sys2Proof

/-- An operation: one constructor per row of the opcode table. -/
inductive Instr where
  /-- PIN_WRITE L, opcode 0x1, format F_L (40_pulse_sequencer.md R101) -/
  | pinWrite (level : Level)
  /-- DELAY_CYCLES N, opcode 0x2, format F_N; `N` is a natural number, at most `2^28 - 1` in an encoded
  operation (R79, R85; WellFormed.lean) (40_pulse_sequencer.md R102) -/
  | delayCycles (n : Nat)
  /-- SEND_BIT B, opcode 0x3, format F_B (41_sk6812_encoder.md R120) -/
  | sendBit (b : Level)
  /-- SEND_BYTE V, opcode 0x4, format F_V (41_sk6812_encoder.md R122) -/
  | sendByte (v : Byte)
  /-- SEND_LED R G B, opcode 0x5, format F_RGB, operands in red, green, blue order
  (41_sk6812_encoder.md R124) -/
  | sendLed (r g b : Byte)
  /-- LATCH, opcode 0x6, format F_0 (42_frame_transmitter.md R150) -/
  | latch
  /-- TRANSMIT_FRAME, opcode 0x7, format F_0 (42_frame_transmitter.md R151) -/
  | transmitFrame
  deriving DecidableEq, Repr

end Sys2Proof
end

