-- ==== Sys2Proof/Machine/Dispatch.lean ====
section
/-! DEFINITION. `exec`: one arm per operation (30_encoding.md R80). -/

namespace Sys2Proof.Machine

def exec (i : Instr) (s : State) : Host.Outcome State Fault Refusal :=
  match i with
  | .pinWrite level => Sys2Proof.Machine.execPinWrite level s
  | .delayCycles n => Sys2Proof.Machine.execDelayCycles n s
  | .sendBit b => Sys2Proof.Machine.execSendBit b s
  | .sendByte v => Sys2Proof.Machine.execSendByte v s
  | .sendLed r g b => Sys2Proof.Machine.execSendLed r g b s
  | .latch => Sys2Proof.Machine.execLatch s
  | .transmitFrame => Sys2Proof.Machine.execTransmitFrame s

end Sys2Proof.Machine
end

