-- ==== Sys2Proof/WellFormed.lean ====
section
/-! DEFINITION. Which operations have an encoding (30_encoding.md R79, R85). -/

namespace Sys2Proof

/-- An operation is well formed when every operand fits its field. The types of the other operands are
exactly their fields; `N` of DELAY_CYCLES must be at most `2^28 - 1` (R79; R85: "A DELAY_CYCLES with
`N >= 2^28` has no encoding"). -/
def wellFormed : Instr → Bool
  | .pinWrite _ => true
  | .delayCycles n => decide (n < 2 ^ 28)
  | .sendBit _ => true
  | .sendByte _ => true
  | .sendLed _ _ _ => true
  | .latch => true
  | .transmitFrame => true

end Sys2Proof
end

