-- ==== Sys2Proof/Decode.lean ====
section
/-! DEFINITION. Decoding and encoding of the 32-bit operation word (30_encoding.md R77 to R85), and the
opcode table as mask and match. The block has no byte-addressed program memory (20_memory.md R50, R67),
so the decoder takes the word itself. -/

namespace Sys2Proof

/-- What `Decode` answers: an operation, or one of the two refusals (R81, R82, R84). -/
inductive Decoded where
  /-- the word spells this operation -/
  | op (i : Instr)
  /-- `refuse(ReservedOpcode)` (R81) -/
  | reservedOpcode
  /-- `refuse(ReservedBits)` (R82) -/
  | reservedBits
  deriving DecidableEq, Repr

/-- `OP = w[31:28]` (R77). -/
def opcodeOf (w : Word) : BitVec 4 := w.extractLsb' 28 4

/-- The operation when the reserved operand bits are zero, else `refuse(ReservedBits)` (R82). -/
def ifReservedZero {n : Nat} (reserved : BitVec n) (i : Instr) : Decoded :=
  if reserved = 0 then .op i else .reservedBits

/-- `Decode` (R84), total on every word. -/
def decode (w : Word) : Decoded :=
  if opcodeOf w = 0x1#4 then ifReservedZero (w.extractLsb' 1 27) (.pinWrite (w.getLsbD 0))
  else if opcodeOf w = 0x2#4 then .op (.delayCycles (w.extractLsb' 0 28).toNat)
  else if opcodeOf w = 0x3#4 then ifReservedZero (w.extractLsb' 1 27) (.sendBit (w.getLsbD 0))
  else if opcodeOf w = 0x4#4 then ifReservedZero (w.extractLsb' 8 20) (.sendByte (w.extractLsb' 0 8))
  else if opcodeOf w = 0x5#4 then
    ifReservedZero (w.extractLsb' 24 4)
      (.sendLed (w.extractLsb' 16 8) (w.extractLsb' 8 8) (w.extractLsb' 0 8))
  else if opcodeOf w = 0x6#4 then ifReservedZero (w.extractLsb' 0 28) .latch
  else if opcodeOf w = 0x7#4 then ifReservedZero (w.extractLsb' 0 28) .transmitFrame
  else .reservedOpcode

/-- A one-bit operand in bit 0 of a word (formats F_L and F_B, R78). -/
def levelWord (l : Level) : Word := (BitVec.ofBool l).setWidth 32

/-- `Encode` (R85). `none` for the one operation that has no encoding, a DELAY_CYCLES with
`N >= 2^28`. -/
def encode : Instr → Option Word
  | .pinWrite l => some (0x10000000#32 ||| levelWord l)
  | .delayCycles n => if n < 2 ^ 28 then some (0x20000000#32 ||| BitVec.ofNat 32 n) else none
  | .sendBit b => some (0x30000000#32 ||| levelWord b)
  | .sendByte v => some (0x40000000#32 ||| v.setWidth 32)
  | .sendLed r g b =>
    some (0x50000000#32 ||| (r.setWidth 32 <<< 16) ||| (g.setWidth 32 <<< 8) ||| b.setWidth 32)
  | .latch => some 0x60000000#32
  | .transmitFrame => some 0x70000000#32

/-- One row of opcode_table.json: a word is of the row when `w AND mask = match` (R84). -/
structure OpRow where
  /-- the row's mnemonic -/
  mnemonic : String
  /-- the bits the row fixes -/
  mask : Word
  /-- the values of those bits -/
  pattern : Word
  deriving DecidableEq, Repr

/-- opcode_table.json, row by row. -/
def opcodeTable : List OpRow :=
  [ ⟨"PIN_WRITE", 0xFFFFFFFE#32, 0x10000000#32⟩,
    ⟨"DELAY_CYCLES", 0xF0000000#32, 0x20000000#32⟩,
    ⟨"SEND_BIT", 0xFFFFFFFE#32, 0x30000000#32⟩,
    ⟨"SEND_BYTE", 0xFFFFFF00#32, 0x40000000#32⟩,
    ⟨"SEND_LED", 0xFF000000#32, 0x50000000#32⟩,
    ⟨"LATCH", 0xFFFFFFFF#32, 0x60000000#32⟩,
    ⟨"TRANSMIT_FRAME", 0xFFFFFFFF#32, 0x70000000#32⟩ ]

/-- Whether a word matches a row (R84). -/
def OpRow.hits (row : OpRow) (w : Word) : Bool := (w &&& row.mask) == row.pattern

/-- The row of an operation (R80). -/
def mnemonicOf : Instr → String
  | .pinWrite _ => "PIN_WRITE"
  | .delayCycles _ => "DELAY_CYCLES"
  | .sendBit _ => "SEND_BIT"
  | .sendByte _ => "SEND_BYTE"
  | .sendLed _ _ _ => "SEND_LED"
  | .latch => "LATCH"
  | .transmitFrame => "TRANSMIT_FRAME"

/-- The operation alone, `none` where the word is refused. -/
def Decoded.toOption : Decoded → Option Instr
  | .op i => some i
  | .reservedOpcode => none
  | .reservedBits => none

/-- The operation the decoder reads from an instruction whose bits are `w`, numbered as the opcode table
numbers them. Every operation is one 32-bit word (R77); the spec has no other length, and what a number given
with one means is the model's: bits above the length or from 32 up make it no operation word, and one of fewer
than 32 bits is the word with zeros above them. DESIGN CHOICE (safe), log entry 12. -/
def decodeTableWord (nbits w : Nat) : Option Instr :=
  if nbits ≤ 32 ∧ w < 2 ^ nbits then (decode (BitVec.ofNat 32 w)).toOption else none

end Sys2Proof
end

