-- ==== Sys2Proof/Machine/Fetch.lean ====
section
/-! DEFINITION. Taking the next pending operation word of a model-only run (00_scope.md R18, 30_encoding.md
R87). The run is refused as a whole if any pending word is refused (60_exceptions.md R204). -/

namespace Sys2Proof.Machine

/-- What the fetch finds. -/
inductive Fetched where
  /-- no operation word is pending: the step is a clock edge -/
  | edge
  /-- the next operation, and the words after it -/
  | op (i : Instr) (rest : List Word)
  /-- some pending word is refused -/
  | refused (r : Refusal)
  deriving DecidableEq, Repr

/-- The refusal of a word, `none` where it decodes (R81, R82). -/
def wordRefusal (w : Word) : Option Refusal :=
  match decode w with
  | .op _ => none
  | .reservedOpcode => some .reservedOpcode
  | .reservedBits => some .reservedBits

/-- The refusal of a run of words, `none` where every word decodes (R204). R204 names no reason for a run with several
refused words: the model names that of the first (DESIGN CHOICE, safe, log entry 19). -/
def runRefusal (ws : List Word) : Option Refusal := ws.findSome? wordRefusal

/-- The next operation of a run of words (R204: refuse the whole run, never skip a word). -/
def fetch (ws : List Word) : Fetched :=
  match runRefusal ws with
  | some r => .refused r
  | none =>
    match ws with
    | [] => .edge
    | w :: rest =>
      match decode w with
      | .op i => .op i rest
      | .reservedOpcode => .refused .reservedOpcode
      | .reservedBits => .refused .reservedBits

end Sys2Proof.Machine
end

