-- ==== Sys2Proof/Machine/Step.lean ====
section
/-! DEFINITION. `step`: one step of a run of the model. A refused configuration makes no step
(60_exceptions.md R205). With operation words pending, the step runs the next one on the execution record
(00_scope.md R18); with none pending, it is one rising edge of `clk` (00_scope.md R3, log entry 6). -/

namespace Sys2Proof.Machine

/-- One step of the model. The configuration is checked first, then the pending words, and the block's state at a
clock edge only, so pending words run beside a block state that breaks R38. R204 and R205 give no order among their
refusals (DESIGN CHOICE, safe, log entry 20). -/
def step (s : State) : Host.Outcome State Fault Refusal :=
  match cfgRefusal s.cfg with
  | some r => .refused r
  | none =>
    match fetch s.ops with
    | .edge => clockEdge s
    | .op i rest => exec i (withOps s rest)
    | .refused r => .refused r

/-- `s` with the word `w` as the one operation word pending, so that the next step runs it. The block loads
no program of its own; this stands for the load from outside (log entry 6). The length is not read, and the word is
the low 32 bits of the number (DESIGN CHOICE, safe, log entry 12). -/
def State.withFetchWord (s : State) (_nbits w : Nat) : State := withOps s [BitVec.ofNat 32 w]

end Sys2Proof.Machine
end

