-- ==== Sys2Proof/Machine/Assembler.lean ====
section
/-! DEFINITION. The assembler syntax, the spec's own (30_encoding.md R88): one operation a line, the mnemonic in
upper case, operands separated by commas, `;` starts a comment. A line is a list of characters. What the rule
leaves open (blank lines, white space, the case of hexadecimal digits) is log entry 16. -/

namespace Sys2Proof.Machine

/-- What a line assembles to. -/
inductive Assembled where
  /-- nothing: a blank line or a comment -/
  | blank
  /-- an operation word -/
  | word (w : Word)
  /-- an assembly error; no word is produced (R88) -/
  | error
  deriving DecidableEq, Repr

/-- The seven mnemonics. -/
inductive Mnemonic where
  | pinWrite
  | delayCycles
  | sendBit
  | sendByte
  | sendLed
  | latch
  | transmitFrame
  deriving DecidableEq, Repr

/-- A mnemonic as it is written, in upper case. -/
def mnemonicTable : List (List Char × Mnemonic) :=
  [ (['P', 'I', 'N', '_', 'W', 'R', 'I', 'T', 'E'], .pinWrite),
    (['D', 'E', 'L', 'A', 'Y', '_', 'C', 'Y', 'C', 'L', 'E', 'S'], .delayCycles),
    (['S', 'E', 'N', 'D', '_', 'B', 'I', 'T'], .sendBit),
    (['S', 'E', 'N', 'D', '_', 'B', 'Y', 'T', 'E'], .sendByte),
    (['S', 'E', 'N', 'D', '_', 'L', 'E', 'D'], .sendLed),
    (['L', 'A', 'T', 'C', 'H'], .latch),
    (['T', 'R', 'A', 'N', 'S', 'M', 'I', 'T', '_', 'F', 'R', 'A', 'M', 'E'], .transmitFrame) ]

/-- The configuration names an operand may be, with their values (R88). -/
def configNames (c : Cfg) : List (List Char × Nat) :=
  [ (['T', '0', 'H'], c.t0h), (['T', '0', 'L'], c.t0l), (['T', '1', 'H'], c.t1h), (['T', '1', 'L'], c.t1l),
    (['T', '_', 'L', 'A', 'T', 'C', 'H'], tLatch c) ]

/-- A one-bit operand in range. -/
def bitOperand (n : Nat) : Option Level := if n = 0 then some false else if n = 1 then some true else none

/-- An 8-bit operand in range. -/
def byteOperand (n : Nat) : Option Byte := if n ≤ 255 then some (BitVec.ofNat 8 n) else none

/-- The operation of a mnemonic and its operand values; `none` for a wrong number of operands or one out of
range (R88). SEND_LED takes red, green, blue. -/
def operationOf : Mnemonic → List Nat → Option Instr
  | .pinWrite, [l] => (bitOperand l).map .pinWrite
  | .delayCycles, [n] => if n ≤ 0x0FFFFFFF then some (.delayCycles n) else none
  | .sendBit, [b] => (bitOperand b).map .sendBit
  | .sendByte, [v] => (byteOperand v).map .sendByte
  | .sendLed, [r, g, b] =>
    (byteOperand r).bind fun r => (byteOperand g).bind fun g => (byteOperand b).map fun b => .sendLed r g b
  | .latch, [] => some .latch
  | .transmitFrame, [] => some .transmitFrame
  | _, _ => none

/-- The line without its comment. -/
def stripComment (line : List Char) : List Char := line.takeWhile fun ch => decide (ch ≠ ';')

/-- White space between the parts of a line. -/
def isBlank (ch : Char) : Bool := decide (ch = ' ') || decide (ch = '\t') || decide (ch = '\r')

/-- Without the white space on either side. -/
def trim (cs : List Char) : List Char := ((cs.dropWhile isBlank).reverse.dropWhile isBlank).reverse

/-- The parts of a text between its commas, trimmed. -/
def operandTexts (cs : List Char) : List (List Char) :=
  if (trim cs).isEmpty then [] else (cs.splitOn ',').map trim

/-- The value of a digit in a base up to 16. -/
def digitValue (base : Nat) (ch : Char) : Option Nat :=
  let v :=
    if '0'.toNat ≤ ch.toNat ∧ ch.toNat ≤ '9'.toNat then ch.toNat - '0'.toNat
    else if 'a'.toNat ≤ ch.toNat ∧ ch.toNat ≤ 'f'.toNat then ch.toNat - 'a'.toNat + 10
    else if 'A'.toNat ≤ ch.toNat ∧ ch.toNat ≤ 'F'.toNat then ch.toNat - 'A'.toNat + 10
    else 16
  if v < base then some v else none

/-- The value of a numeral's digits, after a value already read. -/
def numeralFrom (base : Nat) : Nat → List Char → Option Nat
  | n, [] => some n
  | n, ch :: rest => (digitValue base ch).bind fun d => numeralFrom base (n * base + d) rest

/-- The value of a numeral: at least one digit, every digit of the base. -/
def numeral (base : Nat) (cs : List Char) : Option Nat :=
  if cs.isEmpty then none else numeralFrom base 0 cs

/-- The value of an operand: a configuration name, or a `0x` hexadecimal or a decimal numeral (R88). -/
def operandValue (c : Cfg) (cs : List Char) : Option Nat :=
  match (configNames c).lookup cs with
  | some v => some v
  | none =>
    match cs with
    | '0' :: 'x' :: digits => numeral 16 digits
    | _ => numeral 10 cs

/-- The operation a line without comment and outer white space spells (R88). -/
def parseOperation (c : Cfg) (cs : List Char) : Option Instr :=
  (mnemonicTable.lookup (cs.takeWhile fun ch => !isBlank ch)).bind fun m =>
    ((operandTexts (cs.dropWhile fun ch => !isBlank ch)).mapM (operandValue c)).bind (operationOf m)

/-- One line (R88). -/
def assembleLine (c : Cfg) (line : List Char) : Assembled :=
  let cs := trim (stripComment line)
  if cs.isEmpty then .blank
  else
    match (parseOperation c cs).bind encode with
    | some w => .word w
    | none => .error

/-- A program: the words of its lines in order, `none` on any assembly error (R88). -/
def assemble (c : Cfg) : List (List Char) → Option (List Word)
  | [] => some []
  | line :: rest =>
    match assembleLine c line with
    | .blank => assemble c rest
    | .word w => (assemble c rest).map fun ws => w :: ws
    | .error => none

end Sys2Proof.Machine
end

