-- ==== Sys2Proof/Machine/Observer.lean ====
section
/-! DEFINITION. The reference decoder (41_sk6812_encoder.md R126): what an observer of the line reads back from
a trace. It is no part of the block. A trace is given as the partial map of R18; a cycle without an entry fits
no symbol (log entry 13). -/

namespace Sys2Proof.Machine

/-- Whether `n` cycles from `w` on all have the level `l`. -/
def allAt (tr : Nat → Option Level) (w n : Nat) (l : Level) : Bool :=
  (List.range n).all fun q => decide (tr (w + q) = some l)

/-- Whether the window of `T_BIT` cycles from `w` on is the symbol of the bit `b`. -/
def symbolAt (c : Cfg) (tr : Nat → Option Level) (w : Nat) (b : Level) : Bool :=
  allAt tr w (th c b) true && allAt tr (w + th c b) (tBit c - th c b) false

/-- The bit of one window: 1, else 0, else `Invalid` (`none`) (R126). -/
def decodeSymbol (c : Cfg) (tr : Nat → Option Level) (w : Nat) : Option Level :=
  if symbolAt c tr w true then some true else if symbolAt c tr w false then some false else none

/-- `DecodeSymbols(trace, s, m)` (R126). -/
def decodeSymbols (c : Cfg) (tr : Nat → Option Level) : Nat → Nat → Option (List Level)
  | _, 0 => some []
  | s, m + 1 =>
    (decodeSymbol c tr s).bind fun b => (decodeSymbols c tr (s + tBit c) m).map fun bs => b :: bs

/-- The byte whose bits are given most significant first (R126: "first bit = bit 7"). -/
def byteOfBits (bs : List Level) : Byte :=
  bs.foldl (fun v b => (v <<< 1) ||| (BitVec.ofBool b).setWidth 8) 0

/-- `DecodeBytes(trace, s, n)` (R126): groups of 8 bits of `DecodeSymbols(trace, s, 8n)`. -/
def decodeBytes (c : Cfg) (tr : Nat → Option Level) : Nat → Nat → Option (List Byte)
  | _, 0 => some []
  | s, n + 1 =>
    (decodeSymbols c tr s 8).bind fun bs =>
      (decodeBytes c tr (s + 8 * tBit c) n).map fun vs => byteOfBits bs :: vs

/-- The level the waveform of a list of bits has in its `m`-th cycle (30_encoding.md R70, R71): symbol after
symbol, each high for `TH(b)` and then low; low after the last. -/
def waveform (c : Cfg) (bs : List Level) (m : Nat) : Level :=
  match bs[m / tBit c]? with
  | some b => decide (m % tBit c < th c b)
  | none => false

end Sys2Proof.Machine
end

