-- ==== Sys2Proof/Machine/Sequence.lean ====
section
/-! DEFINITION. Sequences of operations (40_pulse_sequencer.md R100), the expansion of the composite operations
(30_encoding.md R86) and the durations of the operations (70_reset_and_hazards.md R242). -/

namespace Sys2Proof.Machine

/-- `Exec([o1, ..., ok], E)` (R100): the operations in order, each started where the one before ended; the
first fault or refusal ends the run. -/
def execSeq : List Instr → State → Host.Outcome State Fault Refusal
  | [], s => .next s
  | i :: rest, s =>
    match exec i s with
    | .next s' => execSeq rest s'
    | .fault r => .fault r
    | .refused r => .refused r

/-- SEND_LED of a Color Triple (R124, R151). -/
def sendLedOf (p : ColorTriple) : Instr := .sendLed p.r p.g p.b

/-- The expansion of an operation (R86): the sequence that is its meaning, `none` for a primitive. The frame is
that of the record TRANSMIT_FRAME runs on (R151). -/
def expansion (c : Cfg) (F : Frame) : Instr → Option (List Instr)
  | .pinWrite _ => none
  | .delayCycles _ => none
  | .sendBit b => some [.pinWrite true, .delayCycles (th c b), .pinWrite false, .delayCycles (tl c b)]
  | .sendByte v => some ((bitsMsbFirst v).map .sendBit)
  | .sendLed r g b => some [.sendByte g, .sendByte r, .sendByte b]
  | .latch => some [.pinWrite false, .delayCycles (tLatch c)]
  | .transmitFrame => some (F.map sendLedOf ++ [.latch])

/-- `Dur(op)` (R129, R152, R242), in `clk` cycles. -/
def durationOf (c : Cfg) : Instr → Nat
  | .pinWrite _ => 0
  | .delayCycles n => n
  | .sendBit _ => tBit c
  | .sendByte _ => 8 * tBit c
  | .sendLed _ _ _ => 24 * tBit c
  | .latch => tLatch c
  | .transmitFrame => dFrame c

end Sys2Proof.Machine
end

