-- ==== Sys2Proof/Safety.lean ====
section
/-! DEFINITION. What claims about the machine speak of: an admitted configuration and state, the invariant of
a run, what an operation leaves unchanged, the inputs of the coming cycles, and the duties of host and
platform (70_reset_and_hazards.md R233 to R240). -/

namespace Sys2Proof.Machine

/-- A configuration that breaks no constraint of 00_scope.md R8 to R15 (R205). -/
abbrev Admitted (c : Cfg) : Prop := cfgRefusal c = none

/-- The block is the next to move: the configuration is admitted, no operation word is pending and the block's
state satisfies 10_state.md R38. -/
abbrev ReadyForEdge (s : State) : Prop := Admitted s.cfg ∧ s.ops = [] ∧ blockWf s.cfg s.blk = true

/-- The invariant of a run: the configuration is admitted, the block's state satisfies R38, the record's trace
is in canonical form, and the record's frame, if any, has `N_LEDS` entries (R27). -/
abbrev RunInv (s : State) : Prop :=
  Admitted s.cfg ∧ blockWf s.cfg s.blk = true ∧ traceWf s.record.trace = true ∧
    (s.record.fb = none ∨ holdsFrame s.cfg s.record.fb = true)

/-- Everything an operation never touches: the parameters, the block, the pending words, the host's script and
the record's frame (40_pulse_sequencer.md R101, R102). -/
abbrev OnlyLine (s s' : State) : Prop :=
  s'.cfg = s.cfg ∧ s'.blk = s.blk ∧ s'.ops = s.ops ∧ s'.host = s.host ∧ s'.record.fb = s.record.fb

/-- The record `E'` continues `E` for `n` cycles with the levels of `f`, cycle 0 being `E.t`; the entry of
every other cycle is as before (R18, R108). -/
abbrev Continues (E E' : ExecRec) (n : Nat) (f : Nat → Level) : Prop :=
  E'.t = E.t + n ∧
    ∀ k, traceAt E'.trace k = if E.t ≤ k ∧ k < E.t + n then some (f (k - E.t)) else traceAt E.trace k

/-- The inputs of the `k`-th cycle from now. -/
def inputAt (s : State) (k : Nat) : Inputs := s.host.getD k quietInputs

/-- The host presents no reset in the cycles `[0, n)` from now. -/
abbrev NoReset (s : State) (n : Nat) : Prop := ∀ k, k < n → (inputAt s k).rst = false

/-- The host presents no reset and no start in the cycles `[lo, hi)` from now. -/
abbrev Quiet (s : State) (lo hi : Nat) : Prop :=
  ∀ k, lo ≤ k → k < hi → (inputAt s k).rst = false ∧ (inputAt s k).start = false

/-- The state after `k` steps, if no step stops. -/
def stateAfter (s : State) (k : Nat) : Option State :=
  match Host.Core.run Sys2Proof.core k s with
  | .next s' => some s'
  | .fault _ => none
  | .refused _ => none

/-- `dout` in the `k`-th cycle from now, if the run gets there. -/
def doutAt (s : State) (k : Nat) : Option Level := (stateAfter s k).map fun s' => dout s'.blk

/-- `busy` in the `k`-th cycle from now, if the run gets there. -/
def busyAt (s : State) (k : Nat) : Option Bool := (stateAfter s k).map fun s' => busy s'.blk

/-- The host's duty after reset (R234): with `rst` in the current cycle and none after it, no start for
`T_RESET_MIN` cycles. -/
abbrev WaitsAfterReset (s : State) : Prop :=
  (inputAt s 0).rst = true ∧ Quiet s 1 (1 + s.cfg.tResetMin)

/-- A count within a range a device accepts. -/
def inRange (r : Range) (n : Nat) : Bool := decide (r.least ≤ n) && decide (n ≤ r.greatest)

/-- Premises (a) and (b) of a display claim (42_frame_transmitter.md R165): the durations lie in
`DEVICE_WINDOW`, and the latch is long enough. -/
def timingFitsDevice (c : Cfg) : Bool :=
  inRange c.deviceWindow.t0h c.t0h && inRange c.deviceWindow.t0l c.t0l &&
    inRange c.deviceWindow.t1h c.t1h && inRange c.deviceWindow.t1l c.t1l &&
    inRange c.deviceWindow.tBit (tBit c) && decide (c.tResetMin ≤ tLatch c)

end Sys2Proof.Machine
end

