-- ==== Sys2Proof/Certificates/Slice0/Obligations.lean ====
section
/-! DEFINITION. The statements for the provers, in the order of OBLIGATIONS.json: encodings, operations, runs of
operation words, the clock edge, frames, and the invariants of a run. -/

open Sys2Proof Sys2Proof.Machine

/-! ### Encodings -/

/-- R85: the encoding of every operation, the two directions of "the inverse of rule R84", the operation that has
no encoding, and that every count a composite operation delays by is one of the configuration's, which fit. -/
def Obligations.EncodeAndDecodeAreInverse : Prop :=
  ((∀ l, encode (.pinWrite l) = some (0x10000000#32 ||| levelWord l)) ∧
    (∀ n, n ≤ 0x0FFFFFFF → encode (.delayCycles n) = some (0x20000000#32 ||| BitVec.ofNat 32 n)) ∧
    (∀ b, encode (.sendBit b) = some (0x30000000#32 ||| levelWord b)) ∧
    (∀ v : Byte, encode (.sendByte v) = some (0x40000000#32 ||| v.setWidth 32)) ∧
    (∀ r g b : Byte, encode (.sendLed r g b) =
      some (0x50000000#32 ||| (r.setWidth 32 <<< 16) ||| (g.setWidth 32 <<< 8) ||| b.setWidth 32)) ∧
    encode .latch = some 0x60000000#32 ∧ encode .transmitFrame = some 0x70000000#32) ∧
  (∀ i, wellFormed i = true → ∃ w, encode i = some w ∧ decode w = .op i) ∧
  (∀ w i, decode w = .op i → wellFormed i = true ∧ encode i = some w) ∧
  (∀ n, 2 ^ 28 ≤ n → encode (.delayCycles n) = none) ∧
  (∀ c F i is, Admitted c → expansion c F i = some is →
    ∀ n, .delayCycles n ∈ is → n ∈ [c.t0h, c.t0l, c.t1h, c.t1l, tLatch c] ∧ n < 2 ^ 28)

/-- R84: a word matches exactly the opcode-table row of the operation it decodes to, and no row if it is refused;
so no two rows overlap. -/
def Obligations.DecodeFollowsOpcodeTable : Prop :=
  ∀ w, (opcodeTable.filter fun row => row.hits w).map OpRow.mnemonic =
    match decode w with
    | .op i => [mnemonicOf i]
    | .reservedOpcode => []
    | .reservedBits => []

/-- R82 (and R81): the words that are refused, each with its reason, and the examples of R82. -/
def Obligations.ReservedWordsAreRefused : Prop :=
  (∀ w, decode w = .reservedOpcode ↔ opcodeOf w = 0x0#4 ∨ 0x8#4 ≤ opcodeOf w) ∧
  (∀ w, decode w = .reservedBits ↔
    ((opcodeOf w = 0x1#4 ∨ opcodeOf w = 0x3#4) ∧ w.extractLsb' 1 27 ≠ 0) ∨
    (opcodeOf w = 0x4#4 ∧ w.extractLsb' 8 20 ≠ 0) ∨
    (opcodeOf w = 0x5#4 ∧ w.extractLsb' 24 4 ≠ 0) ∨
    ((opcodeOf w = 0x6#4 ∨ opcodeOf w = 0x7#4) ∧ w.extractLsb' 0 28 ≠ 0)) ∧
  decode 0x10000002#32 = .reservedBits ∧ decode 0x10000001#32 = .op (.pinWrite true)

/-- A few words of 95_test_vectors.md (V-E1 to V-E24), one of each operation and of each refusal. -/
def Obligations.VectorWordsDecode : Prop :=
  decode 0x10000000#32 = .op (.pinWrite false) ∧ decode 0x20002710#32 = .op (.delayCycles 10000) ∧
  decode 0x30000001#32 = .op (.sendBit true) ∧ decode 0x400000A5#32 = .op (.sendByte 0xA5#8) ∧
  decode 0x50123456#32 = .op (.sendLed 0x12#8 0x34#8 0x56#8) ∧ decode 0x60000000#32 = .op .latch ∧
  decode 0x70000000#32 = .op .transmitFrame ∧ decode 0x18000000#32 = .reservedBits ∧
  decode 0xF0000000#32 = .reservedOpcode

/-- R88: an operand in range gives the operation, which has an encoding; an operand out of range gives no
operation. SEND_LED takes its operands in red, green, blue order. -/
def Obligations.AssemblerChecksOperands : Prop :=
  (∀ m vs i, operationOf m vs = some i → wellFormed i = true) ∧
  (∀ n, operationOf .pinWrite [n] =
    if n = 0 then some (.pinWrite false) else if n = 1 then some (.pinWrite true) else none) ∧
  (∀ n, operationOf .delayCycles [n] = if n ≤ 0x0FFFFFFF then some (.delayCycles n) else none) ∧
  (∀ n, operationOf .sendBit [n] =
    if n = 0 then some (.sendBit false) else if n = 1 then some (.sendBit true) else none) ∧
  (∀ n, operationOf .sendByte [n] = if n ≤ 255 then some (.sendByte (BitVec.ofNat 8 n)) else none) ∧
  (∀ r g b, operationOf .sendLed [r, g, b] =
    if r ≤ 255 ∧ g ≤ 255 ∧ b ≤ 255 then
      some (.sendLed (BitVec.ofNat 8 r) (BitVec.ofNat 8 g) (BitVec.ofNat 8 b)) else none)

/-! ### The operations -/

/-- R101: PIN_WRITE sets the level and nothing else, in zero cycles; a Hold of nonzero length shows it first in
the cycle the record stands at. -/
def Obligations.PinWriteSetsLevel : Prop :=
  (∀ l s, exec (.pinWrite l) s = .next { s with record := { s.record with pin := l } }) ∧
  (∀ l s n, 1 ≤ n → ∃ t, execSeq [.pinWrite l, .delayCycles n] s = .next t ∧
    traceAt t.record.trace s.record.t = some l) ∧
  (∀ l, encode (.pinWrite l) = some (0x10000000#32 ||| levelWord l))

/-- R102: DELAY_CYCLES N gives the current level to exactly the `N` cycles from `E.t` on, moves `t` by `N` and
changes nothing else; the counts of an admitted configuration fit the counter. R102's operand is at most `2^28 - 1`:
that the first clause holds of a larger `N` too is the model's choice, log entry 17. -/
def Obligations.DelayHoldsLevel : Prop :=
  (∀ n s, ∃ t, exec (.delayCycles n) s = .next t ∧ OnlyLine s t ∧ t.record.pin = s.record.pin ∧
    t.record.t = s.record.t + n ∧
    ∀ k, traceAt t.record.trace k =
      if s.record.t ≤ k ∧ k < s.record.t + n then some s.record.pin else traceAt s.record.trace k) ∧
  (∀ n, n < 2 ^ 28 → encode (.delayCycles n) = some (0x20000000#32 ||| BitVec.ofNat 32 n)) ∧
  (∀ c n, Admitted c → n ∈ [c.t0h, c.t0l, c.t1h, c.t1l, tLatch c] → n ≤ 2 ^ 28 - 1)

/-- R103: `Exec(DELAY_CYCLES 0, E) = E`. -/
def Obligations.DelayZeroChangesNothing : Prop :=
  ∀ s, exec (.delayCycles 0) s = .next s

/-- R107: a PIN_WRITE of the level already there changes nothing, and of two PIN_WRITEs with no DELAY_CYCLES of
nonzero length between them only the second can be seen. -/
def Obligations.OnlyLastPinWriteShows : Prop :=
  (∀ s, exec (.pinWrite s.record.pin) s = .next s) ∧
  ∀ a b zs s, (∀ z ∈ zs, z = .delayCycles 0) →
    execSeq (.pinWrite a :: (zs ++ [.pinWrite b])) s = execSeq [.pinWrite b] s

/-- R120: SEND_BIT B, from any level, gives `TH(B)` high cycles and then `TL(B)` low cycles from `E.t` on, moves
`t` by `T_BIT`, leaves the level low and changes nothing else. -/
def Obligations.SendBitIsOneSymbol : Prop :=
  (∀ b s, Admitted s.cfg → ∃ t, exec (.sendBit b) s = .next t ∧ OnlyLine s t ∧ t.record.pin = false ∧
    t.record.t = s.record.t + tBit s.cfg ∧ 1 ≤ tl s.cfg b ∧
    ∀ k, traceAt t.record.trace k =
      if s.record.t ≤ k ∧ k < s.record.t + th s.cfg b then some true
      else if s.record.t + th s.cfg b ≤ k ∧ k < s.record.t + tBit s.cfg then some false
      else traceAt s.record.trace k) ∧
  (∀ b s, exec (.sendBit b) s =
    execSeq [.pinWrite true, .delayCycles (th s.cfg b), .pinWrite false, .delayCycles (tl s.cfg b)] s) ∧
  (∀ b s l, exec (.sendBit b) { s with record := { s.record with pin := l } } = exec (.sendBit b) s) ∧
  (∀ b, encode (.sendBit b) = some (0x30000000#32 ||| levelWord b))

/-- R122: SEND_BYTE V sends the symbol of bit `V[7-q]` in the `q`-th window of `T_BIT` cycles, for `q` from 0 to 7,
moves `t` by `8 * T_BIT`, leaves the level low and changes nothing else. -/
def Obligations.SendByteIsEightSymbols : Prop :=
  (∀ v s, Admitted s.cfg → ∃ t, exec (.sendByte v) s = .next t ∧ OnlyLine s t ∧ t.record.pin = false ∧
    t.record.t = s.record.t + 8 * tBit s.cfg ∧
    (∀ q m, q < 8 → m < tBit s.cfg → traceAt t.record.trace (s.record.t + q * tBit s.cfg + m) =
      some (decide (m < th s.cfg (v.getLsbD (7 - q))))) ∧
    ∀ k, k < s.record.t ∨ t.record.t ≤ k → traceAt t.record.trace k = traceAt s.record.trace k) ∧
  (∀ v s, exec (.sendByte v) s =
    execSeq [.sendBit (v.getLsbD 7), .sendBit (v.getLsbD 6), .sendBit (v.getLsbD 5), .sendBit (v.getLsbD 4),
      .sendBit (v.getLsbD 3), .sendBit (v.getLsbD 2), .sendBit (v.getLsbD 1), .sendBit (v.getLsbD 0)] s) ∧
  (∀ v : Byte, encode (.sendByte v) = some (0x40000000#32 ||| v.setWidth 32))

/-- R124: SEND_LED R G B sends the bytes G, R, B: window `q` of 24 holds bit `7 - q mod 8` of byte `q div 8` of
them; it moves `t` by `24 * T_BIT`, leaves the level low and changes nothing else. -/
def Obligations.SendLedSendsGreenRedBlue : Prop :=
  (∀ r g b s, Admitted s.cfg → ∃ t, exec (.sendLed r g b) s = .next t ∧ OnlyLine s t ∧ t.record.pin = false ∧
    t.record.t = s.record.t + 24 * tBit s.cfg ∧
    (∀ q m, q < 24 → m < tBit s.cfg → traceAt t.record.trace (s.record.t + q * tBit s.cfg + m) =
      some (decide (m < th s.cfg
        ((if q < 8 then g else if q < 16 then r else b).getLsbD (7 - q % 8))))) ∧
    ∀ k, k < s.record.t ∨ t.record.t ≤ k → traceAt t.record.trace k = traceAt s.record.trace k) ∧
  (∀ r g b s, exec (.sendLed r g b) s = execSeq [.sendByte g, .sendByte r, .sendByte b] s) ∧
  (∀ r g b : Byte, encode (.sendLed r g b) =
    some (0x50000000#32 ||| (r.setWidth 32 <<< 16) ||| (g.setWidth 32 <<< 8) ||| b.setWidth 32))

/-- R150: LATCH holds the line low for exactly `T_LATCH` cycles, never an empty hold, and changes nothing else. The
first two clauses hold of every configuration: what `T_LATCH` is where `F_CLK` is no multiple of 1000 is the model's
choice, log entry 21. -/
def Obligations.LatchHoldsLow : Prop :=
  (∀ s, ∃ t, exec .latch s = .next t ∧ OnlyLine s t ∧ t.record.pin = false ∧
    t.record.t = s.record.t + tLatch s.cfg ∧
    ∀ k, traceAt t.record.trace k =
      if s.record.t ≤ k ∧ k < s.record.t + tLatch s.cfg then some false else traceAt s.record.trace k) ∧
  (∀ s, exec .latch s = execSeq [.pinWrite false, .delayCycles (tLatch s.cfg)] s) ∧
  (∀ c, Admitted c → 1 ≤ c.tResetMin ∧ c.tResetMin ≤ tLatch c) ∧
  encode .latch = some 0x60000000#32

/-- R151: TRANSMIT_FRAME of a record that holds a frame sends the frame's bits in wire order, one symbol each, and
then holds the line low for `T_LATCH` cycles; with no frame the model faults. -/
def Obligations.TransmitFrameSendsFrame : Prop :=
  (∀ s F, Admitted s.cfg → s.record.fb = some F → F.length = s.cfg.nLeds →
    ∃ t, exec .transmitFrame s = .next t ∧ OnlyLine s t ∧ t.record.pin = false ∧
      t.record.t = s.record.t + 24 * s.cfg.nLeds * tBit s.cfg + tLatch s.cfg ∧
      exec .transmitFrame s = execSeq (F.map sendLedOf ++ [.latch]) s ∧
      (∀ j m, j < 24 * s.cfg.nLeds → m < tBit s.cfg → ∃ b, frameBit (some F) j = some b ∧
        traceAt t.record.trace (s.record.t + j * tBit s.cfg + m) = some (decide (m < th s.cfg b))) ∧
      (∀ m, m < tLatch s.cfg →
        traceAt t.record.trace (s.record.t + 24 * s.cfg.nLeds * tBit s.cfg + m) = some false) ∧
      ∀ k, k < s.record.t ∨ t.record.t ≤ k → traceAt t.record.trace k = traceAt s.record.trace k) ∧
  (∀ s, s.record.fb = none → exec .transmitFrame s = .fault .frameReadNone) ∧
  encode .transmitFrame = some 0x70000000#32

/-- R86: PIN_WRITE and DELAY_CYCLES have no expansion; every other operation is its expansion. -/
def Obligations.CompositesMeanTheirExpansion : Prop :=
  (∀ c F i, expansion c F i = none ↔ (∃ l, i = .pinWrite l) ∨ ∃ n, i = .delayCycles n) ∧
  ∀ s F i is, (i = .transmitFrame → s.record.fb = some F ∧ F.length = s.cfg.nLeds) →
    expansion s.cfg F i = some is → exec i s = execSeq is s

/-- R129 and R152: the duration of every operation, whatever its operand and the frame. -/
def Obligations.DurationsIgnoreData : Prop :=
  (∀ s t b, Admitted s.cfg → exec (.sendBit b) s = .next t → t.record.t - s.record.t = tBit s.cfg) ∧
  (∀ s t v, Admitted s.cfg → exec (.sendByte v) s = .next t → t.record.t - s.record.t = 8 * tBit s.cfg) ∧
  (∀ s t r g b, Admitted s.cfg → exec (.sendLed r g b) s = .next t →
    t.record.t - s.record.t = 24 * tBit s.cfg) ∧
  (∀ s t, Admitted s.cfg → exec .transmitFrame s = .next t →
    t.record.t - s.record.t = 24 * s.cfg.nLeds * tBit s.cfg + tLatch s.cfg) ∧
  24 * configTC.nLeds * tBit configTC + tLatch configTC = 11152

/-- The frame of all seven operations: the parameters, the block, the pending words, the host's script and the
record's frame are unchanged, and so is every trace entry outside the cycles the operation lasts. -/
def Obligations.OperationsLeaveTheRest : Prop :=
  ∀ i s t, exec i s = .next t → OnlyLine s t ∧ s.record.t ≤ t.record.t ∧
    ∀ k, k < s.record.t ∨ t.record.t ≤ k → traceAt t.record.trace k = traceAt s.record.trace k

/-- R108: a run of operations gives one level to every cycle it passes over and to no other, and lasts the sum of
its operations' durations: `N` for a DELAY_CYCLES, 0 for a PIN_WRITE, and for a composite operation the sum over
its expansion. -/
def Obligations.TraceHasNoGaps : Prop :=
  (∀ is s t, Admitted s.cfg → execSeq is s = .next t →
    t.record.t = s.record.t + (is.map (durationOf s.cfg)).sum ∧
    (∀ k, s.record.t ≤ k → k < t.record.t → ∃ l, traceAt t.record.trace k = some l) ∧
    ∀ k, k < s.record.t ∨ t.record.t ≤ k → traceAt t.record.trace k = traceAt s.record.trace k) ∧
  (∀ c l n, durationOf c (.pinWrite l) = 0 ∧ durationOf c (.delayCycles n) = n) ∧
  ∀ c F i is, Admitted c → F.length = c.nLeds → expansion c F i = some is →
    durationOf c i = (is.map (durationOf c)).sum

/-- R100: the empty run changes nothing; a run does its first operation and then the rest from where that ended, and
stops where the first stops; so it is the run of its first part followed by the run of the rest. -/
def Obligations.OperationsRunInOrder : Prop :=
  (∀ s, execSeq [] s = .next s) ∧
  (∀ i, execSeq [i] = exec i) ∧
  (∀ i rest s t, exec i s = .next t → execSeq (i :: rest) s = execSeq rest t) ∧
  (∀ i rest s r, exec i s = .fault r → execSeq (i :: rest) s = .fault r) ∧
  (∀ i rest s r, exec i s = .refused r → execSeq (i :: rest) s = .refused r) ∧
  ∀ xs ys s, (∀ t, execSeq xs s = .next t → execSeq (xs ++ ys) s = execSeq ys t) ∧
    ∀ t, execSeq (xs ++ ys) s = .next t → ∃ u, execSeq xs s = .next u ∧ execSeq ys u = .next t

/-! ### The reference decoder -/

/-- R127: what the reference decoder reads back from the bytes sent is the bytes. -/
def Obligations.BytesDecodeBack : Prop :=
  (∀ s v, Admitted s.cfg → ∃ t, exec (.sendByte v) s = .next t ∧
    decodeBytes s.cfg (traceAt t.record.trace) s.record.t 1 = some [v]) ∧
  ∀ s vs, Admitted s.cfg → ∃ t, execSeq (vs.map .sendByte) s = .next t ∧
    decodeBytes s.cfg (traceAt t.record.trace) s.record.t vs.length = some vs

/-- R128: an LED decodes to green, red, blue, and a frame to its wire bytes. -/
def Obligations.FramesDecodeToWireBytes : Prop :=
  (∀ s r g b, Admitted s.cfg → ∃ t, exec (.sendLed r g b) s = .next t ∧
    decodeBytes s.cfg (traceAt t.record.trace) s.record.t 3 = some [g, r, b]) ∧
  ∀ s F, Admitted s.cfg → s.record.fb = some F → F.length = s.cfg.nLeds →
    ∃ t, exec .transmitFrame s = .next t ∧
      decodeBytes s.cfg (traceAt t.record.trace) s.record.t (3 * s.cfg.nLeds) = some (wireBytes F)

/-- R126: no window is the symbol of both bits. -/
def Obligations.SymbolsAreDistinct : Prop :=
  ∀ c tr w, Admitted c → ¬(symbolAt c tr w true = true ∧ symbolAt c tr w false = true)

/-- R57's `WireBytes`: the wire bytes of a frame as a list, read byte by byte; the frame of four LEDs written out. That
the bytes are sent in this order is TransmitFrameSendsFrame, FramesDecodeToWireBytes and FrameBitsInWireOrder. -/
def Obligations.WireBytesInOrder : Prop :=
  (∀ F, (wireBytes F).length = 3 * F.length) ∧
  (∀ F i ch, i < F.length → ch.val ≤ 2 → (wireBytes F)[3 * i + ch.val]? = frameRead (some F) i ch) ∧
  ∀ p0 p1 p2 p3 : ColorTriple, wireBytes [p0, p1, p2, p3] =
    [p0.g, p0.r, p0.b, p1.g, p1.r, p1.b, p2.g, p2.r, p2.b, p3.g, p3.r, p3.b]

/-- R125: the `j`-th bit of a frame, its inverse the linear index of R36, and the window of its symbol when the
frame's LEDs are sent. -/
def Obligations.FrameBitsInWireOrder : Prop :=
  (∀ F j, j < 24 * F.length → ∃ b, frameBit (some F) j = some b ∧
    wireBit (some F) (j / 24) ⟨j % 24 / 8, by omega⟩ ⟨7 - j % 8, by omega⟩ = some b) ∧
  (∀ F l ch k, ch.val ≤ 2 → frameBit (some F) (linearIndex l ch k) = wireBit (some F) l ch k) ∧
  ∀ s F, Admitted s.cfg → ∃ t, execSeq (F.map sendLedOf) s = .next t ∧
    ∀ j m b, frameBit (some F) j = some b → m < tBit s.cfg →
      traceAt t.record.trace (s.record.t + j * tBit s.cfg + m) = some (decide (m < th s.cfg b))

/-- R76: which bits of `frame_data` each channel of each LED is. -/
def Obligations.UnpackReadsPort : Prop :=
  ∀ n (fd : BitVec (24 * n)), (unpack n fd).length = n ∧
    ∀ i, i < n → ∃ p, (unpack n fd)[i]? = some p ∧ ∀ k, k < 8 →
      p.r.getLsbD k = fd.getLsbD (24 * i + 16 + k) ∧ p.g.getLsbD k = fd.getLsbD (24 * i + 8 + k) ∧
      p.b.getLsbD k = fd.getLsbD (24 * i + k)

/-! ### Steps -/

/-- A step runs the pending operation: with an admitted configuration and every pending word an operation, the
step is `exec` of the first on the state without it. That words run before the next edge is the model's choice, log
entry 6. -/
def Obligations.StepRunsPendingOperation : Prop :=
  ∀ s w rest i, Admitted s.cfg → s.ops = w :: rest → decode w = .op i →
    (∀ w' ∈ rest, ∃ j, decode w' = .op j) → step s = exec i { s with ops := rest }

/-- R204: a refused word among the pending ones refuses the whole run. That the reason is the first such word's is the
model's choice, log entry 19; that the words are checked after the configuration is log entry 20's. -/
def Obligations.RefusedWordRefusesRun : Prop :=
  ∀ s pre w post, Admitted s.cfg → s.ops = pre ++ w :: post → (∀ w' ∈ pre, ∃ j, decode w' = .op j) →
    (decode w = .reservedOpcode → step s = .refused .reservedOpcode) ∧
    (decode w = .reservedBits → step s = .refused .reservedBits)

/-- A program of pending words runs as the sequence of its operations (R18, R100), one step each (the model's choice,
log entry 6). -/
def Obligations.PendingProgramRunsInOrder : Prop :=
  ∀ s is t, Admitted s.cfg → is.map encode = s.ops.map some → execSeq is { s with ops := [] } = .next t →
    Host.Core.run Sys2Proof.core is.length s = .next t

/-- With no operation pending a step is the edge of R160 on the current inputs, which are then consumed. -/
def Obligations.StepWithoutOperationsIsEdge : Prop :=
  ∀ s σ, Admitted s.cfg → s.ops = [] → ((inputsNow s).rst = true ∨ blockWf s.cfg s.blk = true) →
    edge s.cfg s.blk (inputsNow s) = .next σ →
    step s = .next { s with blk := σ, host := s.host.tail }

/-- What a step leaves alone: the parameters always (R7); the record and the pending words when the block moves;
the block and the host's script when an operation runs. The split by pending words, and that an operation takes no
cycle of the block, are the model's choice, log entries 1 and 6. -/
def Obligations.StepsLeaveTheRest : Prop :=
  ∀ s t, step s = .next t → t.cfg = s.cfg ∧
    (s.ops = [] → t.record = s.record ∧ t.ops = [] ∧ t.host = s.host.tail) ∧
    ∀ w rest, s.ops = w :: rest → t.blk = s.blk ∧ t.host = s.host ∧ t.ops = rest ∧ t.record.fb = s.record.fb

/-- R205: a configuration is admitted iff it satisfies R8 to R15, the reason is one of R205's seven and names a
constraint it breaks, and a refused configuration makes no step. The model's choices in it: which reason is named
where several are broken (log entry 4), that the configuration is checked before the words and the block (log entry
20), and `T_LATCH` where `F_CLK` is no multiple of 1000 (log entry 21). -/
def Obligations.ConfigurationConstraints : Prop :=
  (∀ c, Admitted c ↔
    c.t0h + c.t0l = c.t1h + c.t1l ∧
    (1 ≤ c.t0h ∧ 1 ≤ c.t0l ∧ 1 ≤ c.t1h ∧ 1 ≤ c.t1l ∧ 1 ≤ c.latchMs ∧ 1 ≤ c.tResetMin) ∧
    (c.t0h < 2 ^ 28 ∧ c.t0l < 2 ^ 28 ∧ c.t1h < 2 ^ 28 ∧ c.t1l < 2 ^ 28 ∧ tLatch c < 2 ^ 28) ∧
    c.t0h ≠ c.t1h ∧ c.tResetMin ≤ c.latchMs * (c.fClk / 1000) ∧ 1 ≤ c.nLeds ∧ c.fClk % 1000 = 0) ∧
  (∀ s r, cfgRefusal s.cfg = some r → step s = .refused r) ∧
  (∀ c r, cfgRefusal c = some r → r ∈ [.bitPeriodUnequal, .zeroDuration, .countTooWide, .symbolsIndistinct,
    .latchTooShort, .noLeds, .clockNotMsMultiple]) ∧
  (∀ c, cfgRefusal c = some .bitPeriodUnequal → c.t0h + c.t0l ≠ c.t1h + c.t1l) ∧
  (∀ c, cfgRefusal c = some .zeroDuration →
    c.t0h = 0 ∨ c.t0l = 0 ∨ c.t1h = 0 ∨ c.t1l = 0 ∨ c.latchMs = 0 ∨ c.tResetMin = 0) ∧
  (∀ c, cfgRefusal c = some .countTooWide →
    2 ^ 28 ≤ c.t0h ∨ 2 ^ 28 ≤ c.t0l ∨ 2 ^ 28 ≤ c.t1h ∨ 2 ^ 28 ≤ c.t1l ∨ 2 ^ 28 ≤ tLatch c) ∧
  (∀ c, cfgRefusal c = some .symbolsIndistinct → c.t0h = c.t1h) ∧
  (∀ c, cfgRefusal c = some .latchTooShort → tLatch c < c.tResetMin) ∧
  (∀ c, cfgRefusal c = some .noLeds → c.nLeds = 0) ∧
  ∀ c, cfgRefusal c = some .clockNotMsMultiple → c.fClk % 1000 ≠ 0

/-- R205, as log entry 5 reads it: a block state that breaks R38 is refused unless the cycle resets it; and, the
model's choice of log entry 11, TRANSMIT_FRAME of a record whose frame does not have `N_LEDS` entries is refused. -/
def Obligations.IllFormedStateIsRefused : Prop :=
  (∀ s, Admitted s.cfg → s.ops = [] → (inputsNow s).rst = false → blockWf s.cfg s.blk = false →
    step s = .refused .illFormedState) ∧
  ∀ s F, s.record.fb = some F → F.length ≠ s.cfg.nLeds → exec .transmitFrame s = .refused .illFormedState

/-- R206: a step faults in exactly one case, the TRANSMIT_FRAME that reads a record without a frame. -/
def Obligations.FaultsOnlyWithoutFrame : Prop :=
  (∀ s r, step s = .fault r → r = .frameReadNone ∧ s.record.fb = none ∧
    ∃ w rest, s.ops = w :: rest ∧ decode w = .op .transmitFrame) ∧
  ∀ s w rest, Admitted s.cfg → s.ops = w :: rest → decode w = .op .transmitFrame →
    (∀ w' ∈ rest, ∃ j, decode w' = .op j) → s.record.fb = none → step s = .fault .frameReadNone

/-! ### Reset -/

/-- R29: the value of every field of the block after reset, and the outputs that follow (R31, R32). -/
def Obligations.ResetStateValues : Prop :=
  State.reset.blk =
    { fsm := .idle, led := 0, ch := 0, bit := 7, phase := .hi, cnt := 0, fb := none, pin := false } ∧
  busy State.reset.blk = false ∧ dout State.reset.blk = false

/-- R230: with `rst = 1` the next block state is ResetState, whatever the block state, `start` and
`frame_data` are. -/
def Obligations.ResetFromAnyState : Prop :=
  ∀ s start fd, Admitted s.cfg → s.ops = [] → inputsNow s = ⟨true, start, fd⟩ →
    step s = .next { s with blk := Block.reset, host := s.host.tail }

/-- R231: while `rst` stays 1 the state stays ResetState, `busy` and `dout` are 0 from the cycle after the first
one with `rst = 1`, and in that first cycle the outputs show the state from before. -/
def Obligations.ResetHolds : Prop :=
  ∀ s n, Admitted s.cfg → s.ops = [] → (∀ k, k < n → (inputAt s k).rst = true) →
    (∀ k, 1 ≤ k → k ≤ n → ∃ t, stateAfter s k = some t ∧ t.blk = Block.reset ∧
      busyAt s k = some false ∧ doutAt s k = some false) ∧
    busyAt s 0 = some (busy s.blk) ∧ doutAt s 0 = some (dout s.blk)

/-- R234: when the host keeps `start = 0` for `T_RESET_MIN` cycles after a reset, the line is low in the cycles
`f` to `f + T_RESET_MIN`, `f` the first cycle after the reset. -/
def Obligations.WaitAfterResetIsLow : Prop :=
  ∀ s, Admitted s.cfg → s.ops = [] → WaitsAfterReset s →
    ∀ m, m ≤ s.cfg.tResetMin → doutAt s (1 + m) = some false

/-- R209: reset wins over a start in the same cycle, and a start in the last cycle of the latch is not accepted.
The third item of R209 is that a step ends at most one phase: `step` is one function. -/
def Obligations.SimultaneousEvents : Prop :=
  (∀ s fd, ReadyForEdge s → inputsNow s = ⟨true, true, fd⟩ →
    ∃ t, step s = .next t ∧ t.blk = Block.reset) ∧
  ∀ s fd, ReadyForEdge s → inputsNow s = ⟨false, true, fd⟩ → s.blk.fsm = .latch → s.blk.cnt = 1 →
    ∃ t, step s = .next t ∧ t.blk = Block.reset

/-! ### The clock edge -/

/-- R155: in IDLE an accepted start takes the frame and begins its first symbol; without a start nothing
changes. -/
def Obligations.IdleEdge : Prop :=
  (∀ s, ReadyForEdge s → s.blk.fsm = .idle → (inputsNow s).rst = false → (inputsNow s).start = true →
    ∃ t F p, step s = .next t ∧ F = unpack s.cfg.nLeds (BitVec.ofNat (24 * s.cfg.nLeds) (inputsNow s).frameData) ∧
      F[0]? = some p ∧
      t.blk = { fsm := .tx, led := 0, ch := 0, bit := 7, phase := .hi, cnt := th s.cfg (p.g.getLsbD 7),
                fb := some F, pin := true }) ∧
  ∀ s, ReadyForEdge s → s.blk.fsm = .idle → (inputsNow s).rst = false → (inputsNow s).start = false →
    ∃ t, step s = .next t ∧ t.blk = s.blk

/-- R156: in the high phase the counter counts down, and after its last cycle the low phase of the same bit
begins. -/
def Obligations.HighPhaseEdge : Prop :=
  (∀ s, ReadyForEdge s → s.blk.fsm = .tx → s.blk.phase = .hi → (inputsNow s).rst = false → 1 < s.blk.cnt →
    ∃ t, step s = .next t ∧ t.blk = { s.blk with cnt := s.blk.cnt - 1 }) ∧
  ∀ s, ReadyForEdge s → s.blk.fsm = .tx → s.blk.phase = .hi → (inputsNow s).rst = false → s.blk.cnt ≤ 1 →
    ∃ t b, step s = .next t ∧ wireBit s.blk.fb s.blk.led s.blk.ch s.blk.bit = some b ∧
      t.blk = { s.blk with phase := .lo, cnt := tl s.cfg b, pin := false }

/-- R157: in the low phase the counter counts down; after its last cycle the latch begins if the bit is the last
one of the frame, and else the high phase of the next bit. -/
def Obligations.LowPhaseEdge : Prop :=
  (∀ s, ReadyForEdge s → s.blk.fsm = .tx → s.blk.phase = .lo → (inputsNow s).rst = false → 1 < s.blk.cnt →
    ∃ t, step s = .next t ∧ t.blk = { s.blk with cnt := s.blk.cnt - 1 }) ∧
  (∀ s, ReadyForEdge s → s.blk.fsm = .tx → s.blk.phase = .lo → (inputsNow s).rst = false → s.blk.cnt ≤ 1 →
    isLast s.cfg s.blk = true →
    ∃ t, step s = .next t ∧ t.blk = { s.blk with fsm := .latch, cnt := tLatch s.cfg }) ∧
  ∀ s l ch k, ReadyForEdge s → s.blk.fsm = .tx → s.blk.phase = .lo → (inputsNow s).rst = false →
    s.blk.cnt ≤ 1 → isLast s.cfg s.blk = false → nextPos s.blk.led s.blk.ch s.blk.bit = (l, ch, k) →
    ∃ t b, step s = .next t ∧ wireBit s.blk.fb l ch k = some b ∧
      t.blk = { s.blk with led := l, ch := ch, bit := k, phase := .hi, cnt := th s.cfg b, pin := true }

/-- R159: in LATCH the counter counts down, and after its last cycle the block is in ResetState. -/
def Obligations.LatchEdge : Prop :=
  (∀ s, ReadyForEdge s → s.blk.fsm = .latch → (inputsNow s).rst = false → 1 < s.blk.cnt →
    ∃ t, step s = .next t ∧ t.blk = { s.blk with cnt := s.blk.cnt - 1 }) ∧
  ∀ s, ReadyForEdge s → s.blk.fsm = .latch → (inputsNow s).rst = false → s.blk.cnt ≤ 1 →
    ∃ t, step s = .next t ∧ t.blk = Block.reset

/-- R160: from every state that satisfies R38 the edge answers a next state, whatever the inputs, and that state
satisfies R38. -/
def Obligations.EdgeIsTotal : Prop :=
  ∀ s, ReadyForEdge s → ∃ t, step s = .next t ∧ blockWf t.cfg t.blk = true

/-- R158: the three cases of `NextPos`, its effect on the linear index, and when `Last` holds. -/
def Obligations.NextPositionAdvances : Prop :=
  (∀ l ch (k k' : Fin 8), k.val = k'.val + 1 → nextPos l ch k = (l, ch, k')) ∧
  (∀ l (ch ch' : Fin 4), ch.val = ch'.val + 1 → ch.val ≤ 2 → nextPos l ch' 0 = (l, ch, 7)) ∧
  (∀ l, nextPos l 2 0 = (l + 1, 0, 7)) ∧
  (∀ l (ch : Fin 4) k, ch.val ≤ 2 →
    linearIndex (nextPos l ch k).1 (nextPos l ch k).2.1 (nextPos l ch k).2.2 = linearIndex l ch k + 1) ∧
  ∀ c σ, 1 ≤ c.nLeds → σ.led < c.nLeds → σ.ch.val ≤ 2 →
    (isLast c σ = true ↔ linearIndex σ.led σ.ch σ.bit = 24 * c.nLeds - 1)

/-- R36: while a frame is sent the position stays or advances by one bit, at the end of a symbol only, and never
passes the last bit. -/
def Obligations.PositionOnlyAdvances : Prop :=
  ∀ s t, ReadyForEdge s → (inputsNow s).rst = false → s.blk.fsm = .tx → step s = .next t → t.blk.fsm = .tx →
    linearIndex t.blk.led t.blk.ch t.blk.bit < 24 * s.cfg.nLeds ∧
    (linearIndex t.blk.led t.blk.ch t.blk.bit = linearIndex s.blk.led s.blk.ch s.blk.bit ∨
      (s.blk.phase = .lo ∧ s.blk.cnt = 1 ∧
        linearIndex t.blk.led t.blk.ch t.blk.bit = linearIndex s.blk.led s.blk.ch s.blk.bit + 1))

/-- R167: without reset only the transitions of the source's state machine happen. -/
def Obligations.SourceTransitionsOnly : Prop :=
  ∀ s t, ReadyForEdge s → (inputsNow s).rst = false → step s = .next t →
    (s.blk.fsm, t.blk.fsm) ∈ [(Fsm.idle, Fsm.idle), (.idle, .tx), (.tx, .tx), (.tx, .latch), (.latch, .latch),
      (.latch, .idle)] ∧
    ((s.blk.fsm, t.blk.fsm) = (.idle, .tx) → accepts s.blk (inputsNow s) = true) ∧
    ((s.blk.fsm, t.blk.fsm) = (.tx, .latch) → isLast s.cfg s.blk = true) ∧
    ((s.blk.fsm, t.blk.fsm) = (.latch, .idle) → s.blk.cnt = 1)

/-- R154: a start while the block is busy has no effect, and `frame_data` in that cycle is not sampled. -/
def Obligations.StartWhileBusyIsIgnored : Prop :=
  ∀ s rest fd fd', ReadyForEdge s → busy s.blk = true →
    ∃ σ, step { s with host := ⟨false, true, fd⟩ :: rest } = .next { s with blk := σ, host := rest } ∧
      step { s with host := ⟨false, false, fd'⟩ :: rest } = .next { s with blk := σ, host := rest }

/-- R53 (and 93_implementation_defined.md U11): the frame buffer changes only by acceptance, on the entry to IDLE
and at reset, and `frame_data` matters only in an accepting cycle. -/
def Obligations.FrameDataOnlyMattersAtAcceptance : Prop :=
  (∀ s t, ReadyForEdge s → step s = .next t → accepts s.blk (inputsNow s) = false →
    t.blk.fb = s.blk.fb ∨ t.blk = Block.reset) ∧
  ∀ s inp rest fd, ReadyForEdge s → accepts s.blk inp = false →
    ∃ σ, step { s with host := inp :: rest } = .next { s with blk := σ, host := rest } ∧
      step { s with host := { inp with frameData := fd } :: rest } = .next { s with blk := σ, host := rest }

/-- R163: while the block is busy, no input but `rst` changes what it does: two runs from the same state whose
hosts agree on `rst` have the same block states for as long as the block is busy, and one cycle longer. -/
def Obligations.BusyBlockSeesOnlyReset : Prop :=
  ∀ s h n, ReadyForEdge s → (∀ k, k < n → (inputAt s k).rst = (h.getD k quietInputs).rst) →
    (∀ k, k < n → busyAt s k = some true) →
    ∃ t u, stateAfter s n = some t ∧ stateAfter { s with host := h } n = some u ∧ t.blk = u.blk

/-- R26: the counter lies within its width, is at least 1 in TX and LATCH, and is 0 in IDLE. -/
def Obligations.CounterStaysInWidth : Prop :=
  ∀ s t, ReadyForEdge s → step s = .next t →
    (t.blk.fsm ≠ .idle → 1 ≤ t.blk.cnt ∧ t.blk.cnt ≤ 2 ^ 28 - 1) ∧ (t.blk.fsm = .idle → t.blk.cnt = 0)

/-! ### Frames -/

/-- R161: a frame accepted in cycle `a` makes the machine drive the very levels that TRANSMIT_FRAME gives, cycle
by cycle, with `busy` high, and then leaves it in ResetState. Cycle `a` is the current one. -/
def Obligations.MachineAgreesWithOperations : Prop :=
  ∀ s a, Admitted s.cfg → s.ops = [] → s.blk = Block.reset → (inputAt s 0).start = true →
    NoReset s (dFrame s.cfg + 1) →
    ∃ E1, exec .transmitFrame
        { s with record := { pin := false, t := a + 1, trace := [], fb := some (sampledFrame s.cfg (inputAt s 0)) } } =
        .next E1 ∧
      (∀ m, m < dFrame s.cfg → busyAt s (1 + m) = some true ∧
        ∃ l, doutAt s (1 + m) = some l ∧ traceAt E1.record.trace (a + 1 + m) = some l) ∧
      ∃ t, stateAfter s (1 + dFrame s.cfg) = some t ∧ t.blk = Block.reset ∧ busy t.blk = false ∧
        dout t.blk = false

/-- R162: the timeline of one frame accepted in the current cycle. -/
def Obligations.FrameTimeline : Prop :=
  ∀ s, Admitted s.cfg → s.ops = [] → s.blk = Block.reset → (inputAt s 0).start = true →
    NoReset s (dFrame s.cfg + 1) →
    (busyAt s 0 = some false ∧ doutAt s 0 = some false) ∧
    (∀ j m, j < 24 * s.cfg.nLeds → m < tBit s.cfg →
      ∃ b, frameBit (some (sampledFrame s.cfg (inputAt s 0))) j = some b ∧
        busyAt s (1 + j * tBit s.cfg + m) = some true ∧
        doutAt s (1 + j * tBit s.cfg + m) = some (decide (m < th s.cfg b))) ∧
    (∀ m, m < tLatch s.cfg → ∃ t, stateAfter s (1 + 24 * s.cfg.nLeds * tBit s.cfg + m) = some t ∧
      t.blk.fsm = .latch ∧ busy t.blk = true ∧ dout t.blk = false) ∧
    (∃ t, stateAfter s (1 + dFrame s.cfg) = some t ∧ t.blk.fsm = .idle ∧ busy t.blk = false) ∧
    ((inputAt s (1 + dFrame s.cfg)).rst = false → (inputAt s (1 + dFrame s.cfg)).start = true →
      doutAt s (2 + dFrame s.cfg) = some true)

/-- R166: two frames with the same data make the same waveform. -/
def Obligations.SameFrameSameWaveform : Prop :=
  ∀ s s', Admitted s.cfg → s'.cfg = s.cfg → s.ops = [] → s'.ops = [] → s.blk = Block.reset →
    s'.blk = Block.reset → (inputAt s 0).start = true → (inputAt s' 0).start = true →
    portValue s.cfg (inputAt s 0) = portValue s.cfg (inputAt s' 0) → NoReset s (dFrame s.cfg + 1) →
    NoReset s' (dFrame s.cfg + 1) →
    ∀ m, m < dFrame s.cfg → ∃ l, doutAt s (1 + m) = some l ∧ doutAt s' (1 + m) = some l

/-- R164: after the last high cycle of a frame the line is low for `TL(b_last) + T_LATCH + 1` cycles, whatever the
host does short of a reset, and the latch is at least `T_RESET_MIN` long. -/
def Obligations.LowGapBetweenFrames : Prop :=
  ∀ s b, ReadyForEdge s → s.blk.fsm = .tx → s.blk.phase = .hi → s.blk.cnt = 1 → isLast s.cfg s.blk = true →
    wireBit s.blk.fb s.blk.led s.blk.ch s.blk.bit = some b → NoReset s (tl s.cfg b + tLatch s.cfg + 1) →
    s.cfg.tResetMin ≤ tLatch s.cfg ∧ doutAt s 0 = some true ∧
    ∀ m, 1 ≤ m → m ≤ tl s.cfg b + tLatch s.cfg + 1 → doutAt s m = some false

/-- R168: in IDLE with no start and no reset the block waits, for as long as the host does. -/
def Obligations.IdleWaits : Prop :=
  ∀ s n, Admitted s.cfg → s.ops = [] → s.blk = Block.reset → Quiet s 0 n →
    ∃ t, stateAfter s n = some t ∧ t.blk = s.blk ∧ busy t.blk = false ∧ dout t.blk = false

/-- R153: a host that holds `start` through a frame has the next frame accepted in the first IDLE cycle after it,
with the data of that cycle. -/
def Obligations.HeldStartSendsFramesBackToBack : Prop :=
  ∀ s, Admitted s.cfg → s.ops = [] → s.blk = Block.reset → NoReset s (dFrame s.cfg + 2) →
    (∀ k, k < dFrame s.cfg + 2 → (inputAt s k).start = true) →
    ∃ t u, stateAfter s 1 = some t ∧ t.blk.fb = some (sampledFrame s.cfg (inputAt s 0)) ∧
      stateAfter s (dFrame s.cfg + 2) = some u ∧ u.blk.fsm = .tx ∧
      u.blk.fb = some (sampledFrame s.cfg (inputAt s (dFrame s.cfg + 1)))

/-! ### Invariants -/

/-- The invariant of a run (R38, R205, R27, and the trace's canonical form, log entry 9): every step keeps it. -/
def Obligations.StepKeepsRunInvariant : Prop :=
  ∀ s t, RunInv s → step s = .next t → RunInv t

/-- The invariant of a run holds at reset. The configuration and the record of `State.reset` are the model's choice,
log entries 2 and 8. -/
def Obligations.RunInvariantAtReset : Prop :=
  RunInv State.reset

/-- R38: every block state a run reaches from ResetState, under any configuration that is admitted, any host and
any pending words, satisfies the invariants of R38, written out. -/
def Obligations.ReachableBlocksAreWellFormed : Prop :=
  ∀ k s t, Admitted s.cfg → s.blk = Block.reset → Host.Core.run Sys2Proof.core k s = .next t →
    (t.blk.fsm = .idle → t.blk.led = 0 ∧ t.blk.ch = 0 ∧ t.blk.bit = 7 ∧ t.blk.phase = .hi ∧ t.blk.cnt = 0 ∧
      t.blk.fb = none ∧ t.blk.pin = false) ∧
    (t.blk.fsm = .tx → ∃ F b, t.blk.fb = some F ∧ F.length = t.cfg.nLeds ∧ t.blk.led < t.cfg.nLeds ∧
      t.blk.ch.val ≤ 2 ∧ 1 ≤ t.blk.cnt ∧ wireBit t.blk.fb t.blk.led t.blk.ch t.blk.bit = some b ∧
      (t.blk.phase = .hi → t.blk.pin = true ∧ t.blk.cnt ≤ th t.cfg b) ∧
      (t.blk.phase = .lo → t.blk.pin = false ∧ t.blk.cnt ≤ tl t.cfg b)) ∧
    (t.blk.fsm = .latch → t.blk.pin = false ∧ 1 ≤ t.blk.cnt ∧ t.blk.cnt ≤ tLatch t.cfg ∧ t.blk.fb ≠ none ∧
      t.blk.led + 1 = t.cfg.nLeds ∧ t.blk.ch = 2 ∧ t.blk.bit = 0 ∧ t.blk.phase = .lo)
end

