-- ==== Sys2Proof/Laws/Checks.lean ====
section
/-! SUPPORT. What an admitted configuration satisfies (00_scope.md R8 to R15), once, in the form the proofs use. -/

namespace Sys2Proof.Machine

/-- The constraints of 00_scope.md R8 to R15 on an admitted configuration. -/
structure Constraints (c : Cfg) : Prop where
  period : c.t0h + c.t0l = c.t1h + c.t1l
  t0h_pos : 1 ≤ c.t0h
  t0l_pos : 1 ≤ c.t0l
  t1h_pos : 1 ≤ c.t1h
  t1l_pos : 1 ≤ c.t1l
  latchMs_pos : 1 ≤ c.latchMs
  tResetMin_pos : 1 ≤ c.tResetMin
  t0h_fits : c.t0h ≤ maxCount
  t0l_fits : c.t0l ≤ maxCount
  t1h_fits : c.t1h ≤ maxCount
  t1l_fits : c.t1l ≤ maxCount
  tLatch_fits : tLatch c ≤ maxCount
  distinct : c.t0h ≠ c.t1h
  latch_long : c.tResetMin ≤ tLatch c
  leds : 1 ≤ c.nLeds
  clock : c.fClk % 1000 = 0

theorem Admitted.constraints {c : Cfg} (h : Admitted c) : Constraints c := by
  unfold Admitted cfgRefusal at h
  split at h
  · cases h
  split at h
  · cases h
  split at h
  · cases h
  split at h
  · cases h
  split at h
  · cases h
  split at h
  · cases h
  split at h
  · cases h
  simp [loadedCounts] at *
  constructor <;> omega

section
variable {c : Cfg} (h : Admitted c)
include h

/-- Both bit periods are `T_BIT` (R10). -/
theorem Admitted.period (b : Level) : th c b + tl c b = tBit c := by
  have := h.constraints.period
  cases b <;> simp [th, tl, tBit]; omega

theorem Admitted.th_pos (b : Level) : 1 ≤ th c b := by
  have h0 := h.constraints.t0h_pos
  have h1 := h.constraints.t1h_pos
  cases b <;> simp [th] <;> omega

theorem Admitted.tl_pos (b : Level) : 1 ≤ tl c b := by
  have h0 := h.constraints.t0l_pos
  have h1 := h.constraints.t1l_pos
  cases b <;> simp [tl] <;> omega

theorem Admitted.tBit_pos : 1 ≤ tBit c := by
  have := h.constraints.t0h_pos
  simp [tBit]; omega

theorem Admitted.th_lt (b : Level) : th c b < tBit c := by
  have := h.period b
  have := h.tl_pos b
  omega

theorem Admitted.tLatch_pos : 1 ≤ tLatch c := by
  have := h.constraints.latch_long
  have := h.constraints.tResetMin_pos
  omega

/-- The two symbols differ in their high time (R11). -/
theorem Admitted.th_inj {b b' : Level} (e : th c b = th c b') : b = b' := by
  have := h.constraints.distinct
  cases b <;> cases b' <;> simp [th] at * <;> omega

end

/-- A configuration that satisfies every constraint is admitted. -/
theorem Constraints.admitted {c : Cfg} (h : Constraints c) : Admitted c := by
  obtain ⟨h1, h2, h3, h4, h5, h6, h7, h8, h9, h10, h11, h12, h13, h14, h15, h16⟩ := h
  unfold Admitted cfgRefusal
  rw [if_neg (by simpa using h1), if_neg (by simp; omega), if_neg (by simp [loadedCounts]; omega),
    if_neg h13, if_neg (by omega), if_neg (by omega), if_neg (by simpa using h16)]

end Sys2Proof.Machine
end

