-- ==== Sys2Proof/Laws/State.lean ====
section
/-! SUPPORT. The fields of every state update, one lemma per field (true by `rfl`, tagged for `simp`), so that no
later proof unfolds a record update. -/

namespace Sys2Proof.Machine

section WithRecord
variable (s : State) (E : ExecRec)

@[simp] theorem withRecord_cfg : (withRecord s E).cfg = s.cfg := rfl
@[simp] theorem withRecord_blk : (withRecord s E).blk = s.blk := rfl
@[simp] theorem withRecord_record : (withRecord s E).record = E := rfl
@[simp] theorem withRecord_ops : (withRecord s E).ops = s.ops := rfl
@[simp] theorem withRecord_host : (withRecord s E).host = s.host := rfl
@[simp] theorem withRecord_self : withRecord s s.record = s := rfl
@[simp] theorem withRecord_withRecord (E' : ExecRec) :
    withRecord (withRecord s E) E' = withRecord s E' := rfl

end WithRecord

section WithOps
variable (s : State) (ws : List Word)

@[simp] theorem withOps_cfg : (withOps s ws).cfg = s.cfg := rfl
@[simp] theorem withOps_blk : (withOps s ws).blk = s.blk := rfl
@[simp] theorem withOps_record : (withOps s ws).record = s.record := rfl
@[simp] theorem withOps_ops : (withOps s ws).ops = ws := rfl
@[simp] theorem withOps_host : (withOps s ws).host = s.host := rfl
@[simp] theorem withOps_self : withOps s s.ops = s := rfl
@[simp] theorem withOps_withOps (ws' : List Word) : withOps (withOps s ws) ws' = withOps s ws' := rfl
theorem withOps_withRecord (E : ExecRec) :
    withOps (withRecord s E) ws = withRecord (withOps s ws) E := rfl

end WithOps

section AfterEdge
variable (s : State) (σ : Block)

@[simp] theorem afterEdge_cfg : (afterEdge s σ).cfg = s.cfg := rfl
@[simp] theorem afterEdge_blk : (afterEdge s σ).blk = σ := rfl
@[simp] theorem afterEdge_record : (afterEdge s σ).record = s.record := rfl
@[simp] theorem afterEdge_ops : (afterEdge s σ).ops = s.ops := rfl
@[simp] theorem afterEdge_host : (afterEdge s σ).host = s.host.tail := rfl

end AfterEdge

section PinWrite
variable (l : Level) (E : ExecRec)

@[simp] theorem pinWrite_pin : (pinWrite l E).pin = l := rfl
@[simp] theorem pinWrite_t : (pinWrite l E).t = E.t := rfl
@[simp] theorem pinWrite_trace : (pinWrite l E).trace = E.trace := rfl
@[simp] theorem pinWrite_fb : (pinWrite l E).fb = E.fb := rfl
@[simp] theorem pinWrite_pinWrite (l' : Level) : pinWrite l' (pinWrite l E) = pinWrite l' E := rfl
@[simp] theorem pinWrite_same : pinWrite E.pin E = E := rfl

end PinWrite

section Hold
variable (n : Nat) (E : ExecRec)

@[simp] theorem hold_pin : (hold n E).pin = E.pin := rfl
@[simp] theorem hold_t : (hold n E).t = E.t + n := rfl
@[simp] theorem hold_trace : (hold n E).trace = traceFill E.trace E.t (E.t + n) E.pin := rfl
@[simp] theorem hold_fb : (hold n E).fb = E.fb := rfl

end Hold

section CountDown
variable (σ : Block)

@[simp] theorem countDown_fsm : (countDown σ).fsm = σ.fsm := rfl
@[simp] theorem countDown_led : (countDown σ).led = σ.led := rfl
@[simp] theorem countDown_ch : (countDown σ).ch = σ.ch := rfl
@[simp] theorem countDown_bit : (countDown σ).bit = σ.bit := rfl
@[simp] theorem countDown_phase : (countDown σ).phase = σ.phase := rfl
@[simp] theorem countDown_cnt : (countDown σ).cnt = σ.cnt - 1 := rfl
@[simp] theorem countDown_fb : (countDown σ).fb = σ.fb := rfl
@[simp] theorem countDown_pin : (countDown σ).pin = σ.pin := rfl

end CountDown

section Reset

@[simp] theorem reset_fsm : Block.reset.fsm = .idle := rfl
@[simp] theorem reset_led : Block.reset.led = 0 := rfl
@[simp] theorem reset_ch : Block.reset.ch = 0 := rfl
@[simp] theorem reset_bit : Block.reset.bit = 7 := rfl
@[simp] theorem reset_phase : Block.reset.phase = .hi := rfl
@[simp] theorem reset_cnt : Block.reset.cnt = 0 := rfl
@[simp] theorem reset_fb : Block.reset.fb = none := rfl
@[simp] theorem reset_pin : Block.reset.pin = false := rfl

end Reset

end Sys2Proof.Machine
end

