-- ==== Sys2Proof/Laws/ClockEdge.lean ====
section
/-! SUPPORT. What a clock edge can do, once (`edge_cases`), what a well-formed block state in `TX` holds, and that
an edge of an admitted configuration keeps 10_state.md R38. -/

namespace Sys2Proof.Machine

/-- A read inside a frame gives a bit (20_memory.md R51). -/
theorem wireBit_inside {F : Frame} {l : Nat} {ch : Fin 4} (hl : l < F.length) (hc : ch.val ≤ 2) (k : Fin 8) :
    ∃ b, wireBit (some F) l ch k = some b := by
  have hp : F[l]? = some F[l] := List.getElem?_eq_getElem hl
  obtain ⟨v, hv⟩ : ∃ v, wireChannel F[l] ch = some v := by
    match ch, hc with
    | 0, _ => exact ⟨_, rfl⟩
    | 1, _ => exact ⟨_, rfl⟩
    | 2, _ => exact ⟨_, rfl⟩
  exact ⟨v.getLsbD k, by simp [wireBit, frameRead, hp, hv]⟩

theorem holdsFrame_iff {c : Cfg} {fb : Option Frame} :
    holdsFrame c fb = true ↔ ∃ F, fb = some F ∧ F.length = c.nLeds := by
  cases fb with
  | none => simp [holdsFrame]
  | some F => simp [holdsFrame]

theorem isLast_iff {c : Cfg} {σ : Block} :
    isLast c σ = true ↔ σ.led + 1 = c.nLeds ∧ σ.ch = 2 ∧ σ.bit = 0 := by
  simp [isLast, and_assoc]

/-- The next position of one that is not the last lies in the frame (R158). -/
theorem nextPos_inside {n l : Nat} {ch : Fin 4} {k : Fin 8} (hl : l < n) (hc : ch.val ≤ 2)
    (h : ¬(l + 1 = n ∧ ch = 2 ∧ k = 0)) : (nextPos l ch k).1 < n ∧ (nextPos l ch k).2.1.val ≤ 2 := by
  unfold nextPos
  split
  · exact ⟨hl, hc⟩
  · next hk =>
    split
    · next h2 => exact ⟨hl, by simp; omega⟩
    · next h2 =>
      have e1 : ch = 2 := Fin.ext (by show ch.val = 2; omega)
      have e2 : k = 0 := Fin.ext (by show k.val = 0; omega)
      have : l + 1 ≠ n := fun e => h ⟨e, e1, e2⟩
      exact ⟨by simp; omega, by simp⟩

/-- The facts of a well-formed state in `TX` (R38). -/
structure Sending (c : Cfg) (σ : Block) (F : Frame) (b : Level) : Prop where
  tx : σ.fsm = .tx
  frame : σ.fb = some F
  length : F.length = c.nLeds
  led : σ.led < c.nLeds
  ch : σ.ch.val ≤ 2
  cnt : 1 ≤ σ.cnt
  bit : wireBit σ.fb σ.led σ.ch σ.bit = some b
  high : σ.phase = .hi → σ.pin = true ∧ σ.cnt ≤ th c b
  low : σ.phase = .lo → σ.pin = false ∧ σ.cnt ≤ tl c b

theorem blockWf_tx {c : Cfg} {σ : Block} (h : blockWf c σ = true) (hs : σ.fsm = .tx) :
    ∃ F b, Sending c σ F b := by
  simp only [blockWf, hs, Bool.and_eq_true, decide_eq_true_eq] at h
  obtain ⟨⟨⟨⟨hf, hl⟩, hc⟩, hn⟩, hp⟩ := h
  obtain ⟨F, hF, hlen⟩ := holdsFrame_iff.1 hf
  obtain ⟨b, hb⟩ := wireBit_inside (F := F) (l := σ.led) (by omega) hc σ.bit
  rw [← hF] at hb
  refine ⟨F, b, hs, hF, hlen, hl, hc, hn, hb, fun hφ => ?_, fun hφ => ?_⟩
  · simpa [phaseWf, hb, hφ] using hp
  · simpa [phaseWf, hb, hφ] using hp

theorem Sending.blockWf {c : Cfg} {σ : Block} {F : Frame} {b : Level} (h : Sending c σ F b) :
    blockWf c σ = true := by
  have hp : phaseWf c σ = true := by
    cases hφ : σ.phase
    · simpa [phaseWf, h.bit, hφ] using h.high hφ
    · simpa [phaseWf, h.bit, hφ] using h.low hφ
  simp [Machine.blockWf, h.tx, holdsFrame_iff.2 ⟨F, h.frame, h.length⟩, h.led, h.ch, h.cnt, hp]

/-- The facts of a well-formed state in `LATCH` (R38). -/
structure Latching (c : Cfg) (σ : Block) : Prop where
  latch : σ.fsm = .latch
  frame : holdsFrame c σ.fb = true
  pin : σ.pin = false
  cnt : 1 ≤ σ.cnt
  cnt_le : σ.cnt ≤ tLatch c
  last : isLast c σ = true
  phase : σ.phase = .lo

theorem blockWf_latch {c : Cfg} {σ : Block} (h : blockWf c σ = true) (hs : σ.fsm = .latch) :
    Latching c σ := by
  simp only [blockWf, hs, Bool.and_eq_true, decide_eq_true_eq, Bool.not_eq_true'] at h
  obtain ⟨⟨⟨⟨⟨h1, h2⟩, h3⟩, h4⟩, h5⟩, h6⟩ := h
  exact ⟨hs, h1, h2, h3, h4, h5, h6⟩

theorem Latching.blockWf {c : Cfg} {σ : Block} (h : Latching c σ) : blockWf c σ = true := by
  simp [Machine.blockWf, h.latch, h.frame, h.pin, h.cnt, h.cnt_le, h.last, h.phase]

theorem blockWf_idle {c : Cfg} {σ : Block} (h : blockWf c σ = true) (hs : σ.fsm = .idle) :
    σ = Block.reset := by
  simpa [blockWf, hs] using h

theorem blockWf_reset (c : Cfg) : blockWf c Block.reset = true := by simp [blockWf]

@[simp] theorem sampledFrame_length (c : Cfg) (inp : Inputs) : (sampledFrame c inp).length = c.nLeds := by
  simp [sampledFrame, unpack]

/-- What an edge that answers a next state can have done (R155 to R160). -/
theorem edge_cases {c : Cfg} {σ σ' : Block} {inp : Inputs} (h : edge c σ inp = .next σ') :
    (inp.rst = true ∧ σ' = Block.reset) ∨
    (inp.rst = false ∧
      ((σ.fsm = .idle ∧ inp.start = false ∧ σ' = σ) ∨
       (σ.fsm = .idle ∧ inp.start = true ∧
          beginSymbol c (some (sampledFrame c inp)) 0 0 7 = .next σ') ∨
       (σ.fsm ≠ .idle ∧ 1 < σ.cnt ∧ σ' = countDown σ) ∨
       (σ.fsm = .tx ∧ σ.phase = .hi ∧ σ.cnt ≤ 1 ∧ ∃ b, wireBit σ.fb σ.led σ.ch σ.bit = some b ∧
          σ' = { σ with phase := .lo, cnt := tl c b, pin := false }) ∨
       (σ.fsm = .tx ∧ σ.phase = .lo ∧ σ.cnt ≤ 1 ∧ isLast c σ = true ∧
          σ' = { σ with fsm := .latch, cnt := tLatch c }) ∨
       (σ.fsm = .tx ∧ σ.phase = .lo ∧ σ.cnt ≤ 1 ∧ isLast c σ = false ∧
          beginSymbol c σ.fb (nextPos σ.led σ.ch σ.bit).1 (nextPos σ.led σ.ch σ.bit).2.1
            (nextPos σ.led σ.ch σ.bit).2.2 = .next σ') ∨
       (σ.fsm = .latch ∧ σ.cnt ≤ 1 ∧ σ' = Block.reset))) := by
  unfold edge at h
  split at h
  · next hr => cases h; exact .inl ⟨hr, rfl⟩
  next hr =>
  refine .inr ⟨by simpa using hr, ?_⟩
  cases hf : σ.fsm <;> simp only [hf] at h
  · unfold stepIdle at h
    split at h
    · next hs => exact .inr (.inl ⟨rfl, hs, h⟩)
    · next hs => cases h; exact .inl ⟨rfl, by simpa using hs, rfl⟩
  · cases hφ : σ.phase <;> simp only [hφ] at h
    · unfold stepHigh at h
      split at h
      · next hc => cases h; exact .inr (.inr (.inl ⟨by simp, hc, rfl⟩))
      · next hc =>
        cases hb : wireBit σ.fb σ.led σ.ch σ.bit with
        | none => simp [withBit, hb] at h
        | some b =>
          simp only [withBit, hb] at h
          cases h
          exact .inr (.inr (.inr (.inl ⟨rfl, rfl, by omega, b, rfl, by simp [hf]⟩)))
    · unfold stepLow at h
      split at h
      · next hc => cases h; exact .inr (.inr (.inl ⟨by simp, hc, rfl⟩))
      · next hc =>
        split at h
        · next hl => cases h; exact .inr (.inr (.inr (.inr (.inl ⟨rfl, rfl, by omega, hl, by simp [hφ]⟩))))
        · next hl =>
          exact .inr (.inr (.inr (.inr (.inr (.inl ⟨rfl, rfl, by omega, by simpa using hl, h⟩)))))
  · unfold stepLatch at h
    split at h
    · next hc => cases h; exact .inr (.inr (.inl ⟨by simp, hc, rfl⟩))
    · next hc => cases h; exact .inr (.inr (.inr (.inr (.inr (.inr ⟨rfl, by omega, rfl⟩)))))

/-- Beginning a symbol inside a frame gives a well-formed state in `TX`. -/
theorem beginSymbol_sending {c : Cfg} (h : Admitted c) {F : Frame} (hF : F.length = c.nLeds) {l : Nat}
    {ch : Fin 4} (hl : l < c.nLeds) (hc : ch.val ≤ 2) (k : Fin 8) :
    ∃ σ b, beginSymbol c (some F) l ch k = .next σ ∧ Sending c σ F b ∧ σ.led = l ∧ σ.ch = ch ∧ σ.bit = k ∧
      σ.phase = .hi ∧ σ.cnt = th c b := by
  obtain ⟨b, hb⟩ := wireBit_inside (F := F) (hF ▸ hl) hc k
  refine ⟨_, b, by rw [beginSymbol, hb]; rfl, ?_, rfl, rfl, rfl, rfl, rfl⟩
  exact ⟨rfl, rfl, hF, hl, hc, h.th_pos b, hb, fun _ => ⟨rfl, Nat.le_refl _⟩, fun e => by cases e⟩

/-- An edge of an admitted configuration, from a well-formed state, answers a well-formed state (R38, R160). -/
theorem edge_keeps_blockWf {c : Cfg} (h : Admitted c) {σ : Block} {inp : Inputs}
    (hw : inp.rst = true ∨ blockWf c σ = true) : ∃ σ', edge c σ inp = .next σ' ∧ blockWf c σ' = true := by
  cases hr : inp.rst
  swap
  · exact ⟨_, by simp [edge, hr], blockWf_reset c⟩
  have hw : blockWf c σ = true := by simpa [hr] using hw
  cases hf : σ.fsm
  · cases hs : inp.start
    · exact ⟨σ, by simp [edge, hr, hf, stepIdle, hs], hw⟩
    · obtain ⟨σ', b, he, hσ, -⟩ := beginSymbol_sending h (F := sampledFrame c inp) (by simp) (l := 0) (ch := 0)
        h.constraints.leds (by simp) 7
      exact ⟨σ', by simp [edge, hr, hf, stepIdle, hs, he], hσ.blockWf⟩
  · obtain ⟨F, b, hS⟩ := blockWf_tx hw hf
    cases hφ : σ.phase
    · by_cases hc : 1 < σ.cnt
      · refine ⟨countDown σ, by simp [edge, hr, hf, hφ, stepHigh, hc], Sending.blockWf (F := F) (b := b) ?_⟩
        have := (hS.high hφ).2
        exact ⟨hf, hS.frame, hS.length, hS.led, hS.ch, by simp; omega, hS.bit,
          fun _ => ⟨(hS.high hφ).1, by simp; omega⟩, fun e => by simp [hφ] at e⟩
      · refine ⟨{ σ with phase := .lo, cnt := tl c b, pin := false },
          by simp [edge, hr, hf, hφ, stepHigh, hc, hS.bit, withBit], Sending.blockWf (F := F) (b := b) ?_⟩
        exact ⟨hf, hS.frame, hS.length, hS.led, hS.ch, h.tl_pos b, hS.bit, (fun e => by cases e),
          fun _ => ⟨rfl, Nat.le_refl _⟩⟩
    · by_cases hc : 1 < σ.cnt
      · refine ⟨countDown σ, by simp [edge, hr, hf, hφ, stepLow, hc], Sending.blockWf (F := F) (b := b) ?_⟩
        have := (hS.low hφ).2
        exact ⟨hf, hS.frame, hS.length, hS.led, hS.ch, by simp; omega, hS.bit, (fun e => by simp [hφ] at e),
          fun _ => ⟨(hS.low hφ).1, by simp; omega⟩⟩
      · cases hl : isLast c σ
        · have hn := nextPos_inside (k := σ.bit) hS.led hS.ch fun e => by simp [isLast_iff.2 e] at hl
          obtain ⟨σ', b', he, hσ, -⟩ := beginSymbol_sending h hS.length hn.1 hn.2 (nextPos σ.led σ.ch σ.bit).2.2
          exact ⟨σ', by simp [edge, hr, hf, hφ, stepLow, hc, hl, hS.frame, he], hσ.blockWf⟩
        · refine ⟨{ σ with fsm := .latch, cnt := tLatch c },
            by simp [edge, hr, hf, hφ, stepLow, hc, hl], Latching.blockWf ?_⟩
          exact ⟨rfl, holdsFrame_iff.2 ⟨F, hS.frame, hS.length⟩, (hS.low hφ).1, h.tLatch_pos, Nat.le_refl _,
            hl, hφ⟩
  · have hL := blockWf_latch hw hf
    by_cases hc : 1 < σ.cnt
    · refine ⟨countDown σ, by simp [edge, hr, hf, stepLatch, hc], Latching.blockWf ?_⟩
      have := hL.cnt_le
      exact ⟨hf, hL.frame, hL.pin, by simp; omega, by simp; omega, hL.last, hL.phase⟩
    · exact ⟨Block.reset, by simp [edge, hr, hf, stepLatch, hc], blockWf_reset c⟩

end Sys2Proof.Machine
end

