-- ==== Sys2Proof/Laws/Encoding.lean ====
section
/-! SUPPORT. The encodings' words read back field by field (30_encoding.md R78, R79, R85), and what a decoded word
can be (R84). -/

namespace Sys2Proof

open Machine

/-- The opcode of an operation (R80). -/
def opcodeOfInstr : Instr → BitVec 4
  | .pinWrite _ => 0x1#4
  | .delayCycles _ => 0x2#4
  | .sendBit _ => 0x3#4
  | .sendByte _ => 0x4#4
  | .sendLed _ _ _ => 0x5#4
  | .latch => 0x6#4
  | .transmitFrame => 0x7#4

theorem ifReservedZero_eq_op {n : Nat} {r : BitVec n} {i j : Instr} :
    ifReservedZero r i = .op j ↔ r = 0 ∧ i = j := by
  unfold ifReservedZero
  split <;> simp_all

/-! ### Fields as numbers -/

theorem extractLsb'_eq_iff {lo n : Nat} (w : Word) (v : BitVec n) :
    w.extractLsb' lo n = v ↔ w.toNat / 2 ^ lo % 2 ^ n = v.toNat := by
  rw [← BitVec.toNat_inj, BitVec.extractLsb'_toNat, Nat.shiftRight_eq_div_pow]

theorem opcodeOf_eq_iff (w : Word) (k : BitVec 4) : opcodeOf w = k ↔ w.toNat / 2 ^ 28 = k.toNat := by
  rw [opcodeOf, extractLsb'_eq_iff]
  have := w.isLt
  rw [Nat.mod_eq_of_lt (by omega)]

theorem getLsbD_zero (w : Word) : w.getLsbD 0 = decide (w.toNat % 2 = 1) := by
  simp [BitVec.getLsbD, Nat.testBit_zero]

theorem operand_toNat (w : Word) : (w.extractLsb' 0 28).toNat = w.toNat % 2 ^ 28 := by
  simp [BitVec.extractLsb'_toNat]

/-! ### The encoded words as numbers (R85) -/

theorem levelWord_toNat (l : Level) : (levelWord l).toNat = l.toNat := by cases l <;> rfl

theorem pinWrite_word_toNat (l : Level) : (0x10000000#32 ||| levelWord l).toNat = 0x10000000 + l.toNat := by
  cases l <;> rfl

theorem sendBit_word_toNat (b : Level) : (0x30000000#32 ||| levelWord b).toNat = 0x30000000 + b.toNat := by
  cases b <;> rfl

theorem delayCycles_word_toNat {n : Nat} (h : n < 2 ^ 28) :
    (0x20000000#32 ||| BitVec.ofNat 32 n).toNat = 0x20000000 + n := by
  have e : BitVec.toNat 0x20000000#32 = 2 ^ 28 * 2 := rfl
  have en : (BitVec.ofNat 32 n).toNat = n := by rw [BitVec.toNat_ofNat, Nat.mod_eq_of_lt (by omega)]
  rw [BitVec.toNat_or, e, en, ← Nat.two_pow_add_eq_or_of_lt h]

theorem sendByte_word_toNat (v : Byte) : (0x40000000#32 ||| v.setWidth 32).toNat = 0x40000000 + v.toNat := by
  have e : BitVec.toNat 0x40000000#32 = 2 ^ 8 * 0x400000 := rfl
  have hv := v.isLt
  rw [BitVec.toNat_or, BitVec.toNat_setWidth, Nat.mod_eq_of_lt (by omega), e, ← Nat.two_pow_add_eq_or_of_lt hv]

theorem sendLed_word_toNat (r g b : Byte) :
    (0x50000000#32 ||| (r.setWidth 32 <<< 16) ||| (g.setWidth 32 <<< 8) ||| b.setWidth 32).toNat =
      0x50000000 + r.toNat * 2 ^ 16 + g.toNat * 2 ^ 8 + b.toNat := by
  have hr := r.isLt
  have hg := g.isLt
  have hb := b.isLt
  have e : BitVec.toNat 0x50000000#32 = 2 ^ 24 * 0x50 := rfl
  have er : (r.setWidth 32 <<< 16).toNat = r.toNat * 2 ^ 16 := by
    rw [BitVec.toNat_shiftLeft, BitVec.toNat_setWidth, Nat.shiftLeft_eq]; omega
  have eg : (g.setWidth 32 <<< 8).toNat = g.toNat * 2 ^ 8 := by
    rw [BitVec.toNat_shiftLeft, BitVec.toNat_setWidth, Nat.shiftLeft_eq]; omega
  have eb : (b.setWidth 32).toNat = b.toNat := by rw [BitVec.toNat_setWidth]; omega
  have e1 : 2 ^ 24 * 0x50 ||| r.toNat * 2 ^ 16 = 2 ^ 24 * 0x50 + r.toNat * 2 ^ 16 :=
    (Nat.two_pow_add_eq_or_of_lt (by omega) _).symm
  have e2 : 2 ^ 24 * 0x50 + r.toNat * 2 ^ 16 ||| g.toNat * 2 ^ 8 =
      2 ^ 24 * 0x50 + r.toNat * 2 ^ 16 + g.toNat * 2 ^ 8 := by
    have := (Nat.two_pow_add_eq_or_of_lt (i := 16) (b := g.toNat * 2 ^ 8) (by omega) (2 ^ 8 * 0x50 + r.toNat)).symm
    rw [show 2 ^ 16 * (2 ^ 8 * 0x50 + r.toNat) = 2 ^ 24 * 0x50 + r.toNat * 2 ^ 16 by omega] at this
    exact this
  have e3 : 2 ^ 24 * 0x50 + r.toNat * 2 ^ 16 + g.toNat * 2 ^ 8 ||| b.toNat =
      2 ^ 24 * 0x50 + r.toNat * 2 ^ 16 + g.toNat * 2 ^ 8 + b.toNat := by
    have := (Nat.two_pow_add_eq_or_of_lt (i := 8) (b := b.toNat) (by omega)
      (2 ^ 16 * 0x50 + r.toNat * 2 ^ 8 + g.toNat)).symm
    rw [show 2 ^ 8 * (2 ^ 16 * 0x50 + r.toNat * 2 ^ 8 + g.toNat) =
      2 ^ 24 * 0x50 + r.toNat * 2 ^ 16 + g.toNat * 2 ^ 8 by omega] at this
    exact this
  rw [BitVec.toNat_or, BitVec.toNat_or, BitVec.toNat_or, e, er, eg, eb, e1, e2, e3]
  rfl

end Sys2Proof
end

