-- ==== Sys2Proof/Laws/Trace.lean ====
section
/-! SUPPORT. The laws of the trace: reading after a write, every other cycle left alone, the canonical form kept
by every write, and equality of canonical traces that agree on every cycle. -/

namespace Sys2Proof.Machine

/-- The level a span gives to a cycle. -/
def spanAt (p : Span) (k : Nat) : Option Level := if p.start ≤ k ∧ k < p.stop then some p.level else none

theorem traceAt_cons (p : Span) (tr : Trace) (k : Nat) :
    traceAt (p :: tr) k = (spanAt p k).or (traceAt tr k) := by
  simp only [traceAt, spanAt]
  split <;> simp

/-- Every span of a list is not empty. -/
def NoEmpty (tr : Trace) : Prop := ∀ p ∈ tr, p.start < p.stop

theorem traceAt_consSpan (p : Span) {tr : Trace} (h : ∀ q ∈ tr.head?, q.start < q.stop) (k : Nat) :
    traceAt (consSpan p tr) k = (spanAt p k).or (traceAt tr k) := by
  unfold consSpan
  split
  · cases tr with
    | nil => simp [traceAt, spanAt]
    | cons q rest =>
      have hq : q.start < q.stop := h q (by simp)
      by_cases hj : q.stop = p.start ∧ q.level = p.level
      · simp only [hj, and_self, if_true, traceAt, spanAt]
        by_cases h1 : p.start ≤ k ∧ k < p.stop
        · rw [if_pos ⟨by omega, h1.2⟩, if_pos h1]; rfl
        · by_cases h2 : q.start ≤ k ∧ k < p.start
          · rw [if_pos (by omega), if_neg h1, if_pos h2]; rfl
          · rw [if_neg (by omega), if_neg h1, if_neg h2]; rfl
      · simp only [hj, if_false, traceAt_cons]
  · have : spanAt p k = none := by simp only [spanAt]; rw [if_neg (by omega)]
    simp [this]

theorem consSpan_noEmpty (p : Span) {tr : Trace} (h : NoEmpty tr) : NoEmpty (consSpan p tr) := by
  unfold consSpan
  split
  · next hp =>
    cases tr with
    | nil => intro q hq; simp at hq; subst hq; exact hp
    | cons q rest =>
      have hq : q.start < q.stop := h q (by simp)
      simp only
      split
      · next hj =>
        intro x hx
        rcases List.mem_cons.1 hx with rfl | hx
        · simp; omega
        · exact h x (by simp [hx])
      · intro x hx
        rcases List.mem_cons.1 hx with rfl | hx
        · exact hp
        · exact h x hx
  · exact h

theorem foldr_consSpan_noEmpty (l : List Span) : NoEmpty (l.foldr consSpan []) := by
  induction l with
  | nil => intro p hp; simp at hp
  | cons p l ih => exact consSpan_noEmpty p ih

theorem traceAt_foldr_consSpan (l : List Span) (k : Nat) :
    traceAt (l.foldr consSpan []) k = traceAt l k := by
  induction l with
  | nil => rfl
  | cons p l ih =>
    rw [List.foldr_cons, traceAt_consSpan p (fun q hq => foldr_consSpan_noEmpty l q (List.mem_of_mem_head? hq)),
      ih, traceAt_cons]

theorem traceAt_append (a b : List Span) (k : Nat) :
    traceAt (a ++ b) k = (traceAt a k).or (traceAt b k) := by
  induction a with
  | nil => simp [traceAt]
  | cons p a ih => rw [List.cons_append, traceAt_cons, traceAt_cons, ih, Option.or_assoc]

theorem traceAt_map_spanFrom (hi : Nat) (tr : Trace) (k : Nat) :
    traceAt (tr.map (spanFrom hi)) k = if hi ≤ k then traceAt tr k else none := by
  induction tr with
  | nil => simp [traceAt]
  | cons p tr ih =>
    simp only [List.map_cons, traceAt, ih, spanFrom]
    by_cases h1 : hi ≤ k
    · have : (max p.start hi ≤ k ∧ k < p.stop) ↔ (p.start ≤ k ∧ k < p.stop) := by omega
      simp [h1]
    · rw [if_neg (by omega)]; simp [h1]

theorem traceAt_map_spanBefore (lo : Nat) (tr : Trace) (k : Nat) :
    traceAt (tr.map (spanBefore lo)) k = if k < lo then traceAt tr k else none := by
  induction tr with
  | nil => simp [traceAt]
  | cons p tr ih =>
    simp only [List.map_cons, traceAt, ih, spanBefore]
    by_cases h1 : k < lo
    · simp [h1]
    · rw [if_neg (by omega)]; simp [h1]

/-- Reading a trace after a write: the written level in the written cycles, the old entry everywhere else. -/
theorem traceAt_traceFill (tr : Trace) (lo hi : Nat) (l : Level) (k : Nat) :
    traceAt (traceFill tr lo hi l) k = if lo ≤ k ∧ k < hi then some l else traceAt tr k := by
  unfold traceFill
  split
  · split
    · next hlt he =>
      have hh : ∀ q ∈ tr.head?, q.start < q.stop := by
        intro q hq
        cases tr with
        | nil => simp at hq
        | cons p tr => simp at hq; subst hq; simp [endsBy] at he; exact he.1
      rw [traceAt_consSpan _ hh]
      simp only [spanAt]
      split <;> simp
    · rw [traceAt_foldr_consSpan, traceAt_append, traceAt_cons, traceAt_map_spanFrom,
        traceAt_map_spanBefore]
      simp only [spanAt]
      by_cases h1 : hi ≤ k
      · rw [if_pos h1, if_neg (by omega), if_neg (by omega), if_neg (by omega)]; simp
      · by_cases h2 : k < lo
        · rw [if_neg h1, if_neg (by omega), if_pos h2, if_neg (by omega)]; simp
        · have hk : lo ≤ k ∧ k < hi := by omega
          simp [h1, hk]
  · rw [if_neg (by omega)]

@[simp] theorem traceFill_same (tr : Trace) (lo : Nat) (l : Level) : traceFill tr lo lo l = tr := by
  simp [traceFill]

/-! ### The canonical form -/

/-- The canonical form with a bound on the first span: it stops at or before `b`. -/
def StopsBy (tr : Trace) (b : Nat) : Prop := ∀ q ∈ tr.head?, q.stop ≤ b

theorem traceWf_tail {p : Span} {tr : Trace} (h : traceWf (p :: tr) = true) : traceWf tr = true := by
  cases tr with
  | nil => rfl
  | cons q rest => simp only [traceWf, Bool.and_eq_true] at h; exact h.2

theorem traceWf_head {p : Span} {tr : Trace} (h : traceWf (p :: tr) = true) : p.start < p.stop := by
  cases tr with
  | nil => simpa [traceWf] using h
  | cons q rest => simp only [traceWf, Bool.and_eq_true, decide_eq_true_eq] at h; exact h.1.1

theorem traceWf_apart {p q : Span} {tr : Trace} (h : traceWf (p :: q :: tr) = true) :
    q.stop < p.start ∨ q.stop = p.start ∧ q.level ≠ p.level := by
  simp only [traceWf, Bool.and_eq_true, Bool.or_eq_true, decide_eq_true_eq] at h
  exact h.1.2

theorem traceWf_stopsBy {p : Span} {tr : Trace} (h : traceWf (p :: tr) = true) : StopsBy tr p.start := by
  intro q hq
  cases tr with
  | nil => simp at hq
  | cons r rest =>
    simp at hq; subst hq
    rcases traceWf_apart h with h | h <;> omega

theorem traceWf_cons {p q : Span} {tr : Trace} (hp : p.start < p.stop)
    (ha : q.stop < p.start ∨ q.stop = p.start ∧ q.level ≠ p.level) (h : traceWf (q :: tr) = true) :
    traceWf (p :: q :: tr) = true := by
  simp only [traceWf, Bool.and_eq_true, Bool.or_eq_true, decide_eq_true_eq]
  exact ⟨⟨hp, ha⟩, h⟩

/-- Putting a span in front keeps the canonical form when the span starts where the trace has ended. -/
theorem traceWf_consSpan {p : Span} {tr : Trace} (h : traceWf tr = true) (hb : StopsBy tr p.start) :
    traceWf (consSpan p tr) = true := by
  unfold consSpan
  split
  · next hp =>
    cases tr with
    | nil => simpa [traceWf] using hp
    | cons q rest =>
      have hq := traceWf_head h
      have hs : q.stop ≤ p.start := hb q (by simp)
      simp only
      split
      · next hj =>
        cases rest with
        | nil => simp [traceWf]; omega
        | cons r rest =>
          refine traceWf_cons (by simp; omega) ?_ (traceWf_tail h)
          rcases traceWf_apart h with h | h
          · exact .inl h
          · exact .inr ⟨h.1, by rw [← hj.2]; exact h.2⟩
      · next hj =>
        refine traceWf_cons hp ?_ h
        by_cases he : q.stop = p.start
        · exact .inr ⟨he, fun hl => hj ⟨he, hl⟩⟩
        · exact .inl (by omega)
  · exact h

theorem stopsBy_consSpan {p : Span} {tr : Trace} {b : Nat} (hb : StopsBy tr b) (hp : p.stop ≤ b) :
    StopsBy (consSpan p tr) b := by
  unfold consSpan
  split
  · cases tr with
    | nil => intro q hq; simp at hq; subst hq; exact hp
    | cons q rest =>
      simp only
      split
      · intro x hx; simp at hx; subst hx; exact hp
      · intro x hx; simp at hx; subst hx; exact hp
  · exact hb

/-- A list of spans, empty ones allowed, in falling order and stopping by `b`. -/
def Falling : List Span → Nat → Prop
  | [], _ => True
  | p :: rest, b => p.stop ≤ b ∧ Falling rest (min p.start b)

theorem Falling.mono {l : List Span} {b b' : Nat} (h : Falling l b) (hb : b ≤ b') : Falling l b' := by
  induction l generalizing b b' with
  | nil => trivial
  | cons p l ih => exact ⟨by have := h.1; omega, ih h.2 (by omega)⟩

theorem foldr_consSpan_wf {l : List Span} {b : Nat} (h : Falling l b) :
    traceWf (l.foldr consSpan []) = true ∧ StopsBy (l.foldr consSpan []) b := by
  induction l generalizing b with
  | nil => exact ⟨rfl, fun q hq => by simp at hq⟩
  | cons p l ih =>
    obtain ⟨hw, hs⟩ := ih h.2
    rw [List.foldr_cons]
    exact ⟨traceWf_consSpan hw (fun q hq => by have := hs q hq; omega),
      stopsBy_consSpan (fun q hq => by have := hs q hq; omega) h.1⟩

theorem falling_append {a b : List Span} {n m : Nat} (ha : Falling a n) (hb : Falling b m) (hm : m ≤ n)
    (hl : ∀ p ∈ a, m ≤ p.start) : Falling (a ++ b) n := by
  induction a generalizing n with
  | nil => exact hb.mono hm
  | cons p a ih =>
    refine ⟨ha.1, ih ha.2 ?_ fun q hq => hl q (by simp [hq])⟩
    have := hl p (by simp); omega

theorem falling_of_wf {tr : Trace} {b : Nat} (h : traceWf tr = true) (hb : StopsBy tr b) : Falling tr b := by
  induction tr generalizing b with
  | nil => trivial
  | cons p tr ih =>
    have h1 : p.stop ≤ b := hb p (by simp)
    have h2 := traceWf_head h
    refine ⟨h1, ih (traceWf_tail h) fun q hq => ?_⟩
    have := traceWf_stopsBy h q hq
    omega

theorem falling_map_spanFrom {l : List Span} {b hi : Nat} (h : Falling l b) :
    Falling (l.map (spanFrom hi)) (max b hi) := by
  induction l generalizing b with
  | nil => trivial
  | cons p l ih =>
    simp only [List.map_cons, Falling, spanFrom]
    have h1 := h.1
    refine ⟨by omega, (ih h.2).mono (by omega)⟩

theorem falling_map_spanBefore {l : List Span} {b lo : Nat} (h : Falling l b) :
    Falling (l.map (spanBefore lo)) (min b lo) := by
  induction l generalizing b with
  | nil => trivial
  | cons p l ih =>
    simp only [List.map_cons, Falling, spanBefore]
    have h1 := h.1
    refine ⟨by omega, (ih h.2).mono (by omega)⟩

/-- Every write keeps the canonical form. -/
theorem traceWf_traceFill {tr : Trace} (lo hi : Nat) (l : Level) (h : traceWf tr = true) :
    traceWf (traceFill tr lo hi l) = true := by
  unfold traceFill
  split
  · next hlt =>
    split
    · next he =>
      refine traceWf_consSpan h fun q hq => ?_
      cases tr with
      | nil => simp at hq
      | cons p tr => simp at hq; subst hq; simp [endsBy] at he; exact he.2
    · obtain ⟨b, hb⟩ : ∃ b, StopsBy tr b := by
        cases tr with
        | nil => exact ⟨0, fun q hq => by simp at hq⟩
        | cons p tr => exact ⟨p.stop, fun q hq => by simp at hq; subst hq; rfl⟩
      have hf := falling_of_wf h hb
      have hr : Falling (⟨lo, hi, l⟩ :: tr.map (spanBefore lo)) hi :=
        ⟨Nat.le_refl _, (falling_map_spanBefore hf).mono (by simp; omega)⟩
      refine (foldr_consSpan_wf (falling_append (falling_map_spanFrom hf) hr (by omega) ?_)).1
      intro p hp
      obtain ⟨q, -, rfl⟩ := List.mem_map.1 hp
      simp [spanFrom]
  · exact h

/-! ### Equality of canonical traces -/

theorem traceAt_none_of_stopsBy {tr : Trace} {b k : Nat} (h : traceWf tr = true) (hb : StopsBy tr b)
    (hk : b ≤ k) : traceAt tr k = none := by
  induction tr generalizing b with
  | nil => rfl
  | cons p tr ih =>
    have h1 : p.stop ≤ b := hb p (by simp)
    have h2 := traceWf_head h
    rw [traceAt, if_neg (by omega)]
    exact ih (traceWf_tail h) (fun q hq => Nat.le_trans (traceWf_stopsBy h q hq) (by omega)) hk

theorem traceAt_head {p : Span} {tr : Trace} {k : Nat} (h1 : p.start ≤ k) (h2 : k < p.stop) :
    traceAt (p :: tr) k = some p.level := by
  rw [traceAt, if_pos ⟨h1, h2⟩]

theorem traceAt_tail {p : Span} {tr : Trace} (h : traceWf (p :: tr) = true) (k : Nat) :
    traceAt tr k = if k < p.start then traceAt (p :: tr) k else none := by
  split
  · rw [traceAt, if_neg (by omega)]
  · exact traceAt_none_of_stopsBy (traceWf_tail h) (traceWf_stopsBy h) (by omega)

/-- Just below its first span a canonical trace does not go on at the same level. -/
theorem traceAt_below_ne {p : Span} {tr : Trace} {k : Nat} (h : traceWf (p :: tr) = true)
    (hk : k + 1 = p.start) : traceAt (p :: tr) k ≠ some p.level := by
  rw [traceAt, if_neg (by omega)]
  cases tr with
  | nil => simp [traceAt]
  | cons q tr =>
    have hq := traceWf_head (traceWf_tail h)
    rcases traceWf_apart h with ha | ha
    · rw [traceAt_none_of_stopsBy (b := q.stop) (traceWf_tail h) (fun r hr => by simp at hr; subst hr; rfl)
        (by omega)]
      simp
    · rw [traceAt_head (by omega) (by omega)]
      simpa using ha.2

theorem traceWf_heads_eq {p q : Span} {a b : Trace} (ha : traceWf (p :: a) = true)
    (hb : traceWf (q :: b) = true) (h : ∀ k, traceAt (p :: a) k = traceAt (q :: b) k) : p = q := by
  have hp := traceWf_head ha
  have hq := traceWf_head hb
  have none_p : ∀ k, p.stop ≤ k → traceAt (p :: a) k = none := fun k hk =>
    traceAt_none_of_stopsBy ha (fun r hr => by simp at hr; subst hr; exact Nat.le_refl _) hk
  have none_q : ∀ k, q.stop ≤ k → traceAt (q :: b) k = none := fun k hk =>
    traceAt_none_of_stopsBy hb (fun r hr => by simp at hr; subst hr; exact Nat.le_refl _) hk
  have hstop : p.stop = q.stop := by
    rcases Nat.lt_trichotomy p.stop q.stop with hl | he | hl
    · have := h (q.stop - 1)
      rw [none_p _ (by omega), traceAt_head (by omega) (by omega)] at this
      simp at this
    · exact he
    · have := h (p.stop - 1)
      rw [none_q _ (by omega), traceAt_head (by omega) (by omega)] at this
      simp at this
  have hlevel : p.level = q.level := by
    have := h (p.stop - 1)
    rw [traceAt_head (by omega) (by omega), traceAt_head (by omega) (by omega)] at this
    simpa using this
  have hstart : p.start = q.start := by
    rcases Nat.lt_trichotomy p.start q.start with hl | he | hl
    · have := h (q.start - 1)
      rw [traceAt_head (by omega) (by omega)] at this
      exact absurd (hlevel ▸ this.symm) (traceAt_below_ne hb (by omega))
    · exact he
    · have := h (p.start - 1)
      rw [traceAt_head (p := q) (by omega) (by omega)] at this
      exact absurd (hlevel ▸ this) (traceAt_below_ne ha (by omega))
  cases p; cases q; simp_all

/-- Two canonical traces that give every cycle the same level are equal. -/
theorem trace_ext {a b : Trace} (ha : traceWf a = true) (hb : traceWf b = true)
    (h : ∀ k, traceAt a k = traceAt b k) : a = b := by
  induction a generalizing b with
  | nil =>
    cases b with
    | nil => rfl
    | cons q b =>
      have := h q.start
      rw [traceAt_head (Nat.le_refl _) (traceWf_head hb)] at this
      simp [traceAt] at this
  | cons p a ih =>
    cases b with
    | nil =>
      have := h p.start
      rw [traceAt_head (Nat.le_refl _) (traceWf_head ha)] at this
      simp [traceAt] at this
    | cons q b =>
      obtain rfl := traceWf_heads_eq ha hb h
      rw [ih (traceWf_tail ha) (traceWf_tail hb) fun k => by
        rw [traceAt_tail ha, traceAt_tail hb, h]]

end Sys2Proof.Machine
end

