-- ==== Sys2Proof/Laws/Operations.lean ====
section
/-! SUPPORT. What each named operation over the execution record does, once: which levels it gives to which
cycles (`Continues`), the level it leaves, the frame it leaves alone and the trace form it keeps. -/

namespace Sys2Proof.Machine

theorem Continues.refl (E : ExecRec) (f : Nat → Level) : Continues E E 0 f :=
  ⟨rfl, fun k => by rw [if_neg (by omega)]⟩

theorem Continues.congr {E E' : ExecRec} {n : Nat} {f g : Nat → Level} (h : Continues E E' n f)
    (e : ∀ m, m < n → f m = g m) : Continues E E' n g :=
  ⟨h.1, fun k => by
    rw [h.2 k]
    split
    · rw [e _ (by omega)]
    · rfl⟩

/-- Two continuations in a row. -/
theorem Continues.trans {E E' E'' : ExecRec} {n m : Nat} {f g : Nat → Level} (h : Continues E E' n f)
    (h' : Continues E' E'' m g) :
    Continues E E'' (n + m) fun k => if k < n then f k else g (k - n) := by
  refine ⟨by rw [h'.1, h.1]; omega, fun k => ?_⟩
  rw [h'.2, h.2, h.1]
  by_cases h1 : E.t ≤ k ∧ k < E.t + n
  · rw [if_neg (by omega), if_pos h1, if_pos (by omega)]
    have : k - E.t < n := by omega
    simp [this]
  · by_cases h2 : E.t + n ≤ k ∧ k < E.t + n + m
    · rw [if_pos h2, if_pos (by omega)]
      have : ¬ k - E.t < n := by omega
      simp [this, Nat.sub_add_eq]
    · rw [if_neg h2, if_neg h1, if_neg (by omega)]

/-- `Hold(n)` (R102). -/
theorem hold_continues (n : Nat) (E : ExecRec) : Continues E (hold n E) n fun _ => E.pin :=
  ⟨rfl, fun k => traceAt_traceFill _ _ _ _ k⟩

theorem pinWrite_continues (l : Level) (E : ExecRec) (f : Nat → Level) : Continues E (pinWrite l E) 0 f :=
  ⟨rfl, fun k => by rw [if_neg (by omega)]; rfl⟩

@[simp] theorem hold_zero (E : ExecRec) : hold 0 E = E := by simp [hold]

/-! ### The composites' levels -/

@[simp] theorem symbol_pin (c : Cfg) (b : Level) (E : ExecRec) : (symbol c b E).pin = false := rfl
@[simp] theorem symbol_fb (c : Cfg) (b : Level) (E : ExecRec) : (symbol c b E).fb = E.fb := rfl

/-- The level before a symbol has no effect on it (R120). -/
theorem symbol_pinWrite (c : Cfg) (b l : Level) (E : ExecRec) : symbol c b (pinWrite l E) = symbol c b E := rfl

theorem symbol_continues (c : Cfg) (b : Level) (E : ExecRec) :
    Continues E (symbol c b E) (th c b + tl c b) fun m => decide (m < th c b) := by
  have h1 := (pinWrite_continues true E fun _ => true).trans (hold_continues (th c b) (pinWrite true E))
  have h2 := (pinWrite_continues false (hold (th c b) (pinWrite true E)) fun _ => true).trans
    (hold_continues (tl c b) (pinWrite false (hold (th c b) (pinWrite true E))))
  have h := h1.trans h2
  simp only [Nat.zero_add, Nat.not_lt_zero, if_false, pinWrite_pin] at h
  refine h.congr fun m _ => ?_
  by_cases hm : m < th c b <;> simp [hm]

@[simp] theorem symbols_nil (c : Cfg) (E : ExecRec) : symbols c [] E = E := rfl

@[simp] theorem symbols_cons (c : Cfg) (b : Level) (bs : List Level) (E : ExecRec) :
    symbols c (b :: bs) E = symbols c bs (symbol c b E) := rfl

theorem symbols_append (c : Cfg) (bs bs' : List Level) (E : ExecRec) :
    symbols c (bs ++ bs') E = symbols c bs' (symbols c bs E) := List.foldl_append

@[simp] theorem symbols_fb (c : Cfg) (bs : List Level) (E : ExecRec) : (symbols c bs E).fb = E.fb := by
  induction bs generalizing E with
  | nil => rfl
  | cons b bs ih => rw [symbols_cons, ih, symbol_fb]

theorem symbols_pin (c : Cfg) {bs : List Level} (h : bs ≠ []) (E : ExecRec) :
    (symbols c bs E).pin = false := by
  induction bs generalizing E with
  | nil => exact absurd rfl h
  | cons b bs ih =>
    cases bs with
    | nil => rfl
    | cons b' bs => exact ih (by simp) _

theorem bytesOut_eq_symbols (c : Cfg) (vs : List Byte) (E : ExecRec) :
    bytesOut c vs E = symbols c (vs.flatMap bitsMsbFirst) E := by
  induction vs generalizing E with
  | nil => rfl
  | cons v vs ih =>
    rw [List.flatMap_cons, symbols_append, ← ih]
    rfl

theorem foldl_ledOut_eq_symbols (c : Cfg) (F : Frame) (E : ExecRec) :
    F.foldl (fun E p => ledOut c p E) E = symbols c (wireBits F) E := by
  induction F generalizing E with
  | nil => rfl
  | cons p F ih =>
    have e : wireBits (p :: F) = (ledBytes p).flatMap bitsMsbFirst ++ wireBits F := by
      simp [wireBits, wireBytes]
    rw [List.foldl_cons, ih, e, symbols_append, ← bytesOut_eq_symbols]
    rfl

theorem frameOut_eq_symbols (c : Cfg) (F : Frame) (E : ExecRec) :
    frameOut c F E = latchHold c (symbols c (wireBits F) E) := by
  rw [frameOut, foldl_ledOut_eq_symbols]

/-! ### The waveform -/

theorem waveform_nil (c : Cfg) (m : Nat) : waveform c [] m = false := by simp [waveform]

theorem waveform_cons {c : Cfg} (hT : 1 ≤ tBit c) (b : Level) (bs : List Level) (m : Nat) :
    waveform c (b :: bs) m = if m < tBit c then decide (m < th c b) else waveform c bs (m - tBit c) := by
  by_cases h : m < tBit c
  · rw [if_pos h, waveform, Nat.div_eq_of_lt h, Nat.mod_eq_of_lt h]
    rfl
  · have e1 : m / tBit c = (m - tBit c) / tBit c + 1 := by
      rw [← Nat.add_div_right _ hT]; congr 1; omega
    have e2 : m % tBit c = (m - tBit c) % tBit c := Nat.mod_eq_sub_mod (by omega)
    rw [if_neg h, waveform, waveform, e1, List.getElem?_cons_succ, e2]

/-- Past its last symbol the waveform is low. -/
theorem waveform_past {c : Cfg} (hT : 1 ≤ tBit c) (bs : List Level) {m : Nat} (h : bs.length * tBit c ≤ m) :
    waveform c bs m = false := by
  have : bs.length ≤ m / tBit c := (Nat.le_div_iff_mul_le hT).2 h
  simp [waveform, List.getElem?_eq_none this]

/-- Consecutive symbols continue the trace with their waveform (R70, R71, R120). -/
theorem symbols_continues {c : Cfg} (h : Admitted c) (bs : List Level) (E : ExecRec) :
    Continues E (symbols c bs E) (bs.length * tBit c) (waveform c bs) := by
  induction bs generalizing E with
  | nil => simpa using Continues.refl E _
  | cons b bs ih =>
    have h1 := symbol_continues c b E
    rw [h.period b] at h1
    have h2 := h1.trans (ih (symbol c b E))
    rw [List.length_cons, Nat.succ_mul, Nat.add_comm]
    exact h2.congr fun m _ => (waveform_cons h.tBit_pos b bs m).symm

/-- The `q`-th symbol of a waveform (R70, R71). -/
theorem waveform_window {c : Cfg} (hT : 1 ≤ tBit c) {bs : List Level} {q m : Nat} {b : Level}
    (hb : bs[q]? = some b) (hm : m < tBit c) : waveform c bs (q * tBit c + m) = decide (m < th c b) := by
  have e1 : (q * tBit c + m) / tBit c = q := by
    rw [Nat.mul_comm, Nat.mul_add_div hT, Nat.div_eq_of_lt hm]; omega
  have e2 : (q * tBit c + m) % tBit c = m := by
    rw [Nat.mul_comm, Nat.mul_add_mod, Nat.mod_eq_of_lt hm]
  simp [waveform, e1, e2, hb]

/-- A trace continued by a waveform, read inside its `q`-th symbol. -/
theorem Continues.window {c : Cfg} (hA : Admitted c) {E E' : ExecRec} {bs : List Level} {n : Nat}
    (h : Continues E E' n (waveform c bs)) (hn : bs.length * tBit c ≤ n) {q m : Nat} {b : Level}
    (hb : bs[q]? = some b) (hm : m < tBit c) :
    traceAt E'.trace (E.t + q * tBit c + m) = some (decide (m < th c b)) := by
  have hq : q < bs.length := (List.getElem?_eq_some_iff.1 hb).1
  have : (q + 1) * tBit c ≤ bs.length * tBit c := Nat.mul_le_mul_right _ hq
  rw [Nat.succ_mul] at this
  rw [h.2, if_pos (by omega), ← waveform_window hA.tBit_pos hb hm]
  congr 2; omega

/-- A continued trace outside the cycles that were added. -/
theorem Continues.outside {E E' : ExecRec} {n : Nat} {f : Nat → Level} (h : Continues E E' n f) {k : Nat}
    (hk : k < E.t ∨ E'.t ≤ k) : traceAt E'.trace k = traceAt E.trace k := by
  have := h.1
  rw [h.2, if_neg (by omega)]

@[simp] theorem bitsMsbFirst_length (v : Byte) : (bitsMsbFirst v).length = 8 := rfl

theorem flatMap_bitsMsbFirst_length (vs : List Byte) : (vs.flatMap bitsMsbFirst).length = 8 * vs.length := by
  induction vs with
  | nil => rfl
  | cons v vs ih => rw [List.flatMap_cons, List.length_append, ih, bitsMsbFirst_length, List.length_cons]; omega

@[simp] theorem wireBytes_length (F : Frame) : (wireBytes F).length = 3 * F.length := by
  induction F with
  | nil => rfl
  | cons p F ih =>
    rw [wireBytes, List.flatMap_cons, List.length_append, ← wireBytes, ih, List.length_cons]
    simp [ledBytes]; omega

@[simp] theorem wireBits_length (F : Frame) : (wireBits F).length = 24 * F.length := by
  rw [wireBits, flatMap_bitsMsbFirst_length, wireBytes_length]; omega

/-- `LATCH` holds the line low for `T_LATCH` cycles (R150). -/
theorem latchHold_continues (c : Cfg) (E : ExecRec) :
    Continues E (latchHold c E) (tLatch c) fun _ => false := by
  have h := (pinWrite_continues false E fun _ => false).trans (hold_continues (tLatch c) (pinWrite false E))
  simp only [Nat.zero_add] at h
  exact h.congr fun m _ => by simp

/-- A frame continues the trace with its bits' waveform and then the low latch (R151, R152). -/
theorem frameOut_continues {c : Cfg} (h : Admitted c) {F : Frame} (hF : F.length = c.nLeds) (E : ExecRec) :
    Continues E (frameOut c F E) (dFrame c) (waveform c (wireBits F)) := by
  rw [frameOut_eq_symbols]
  have h1 := (symbols_continues h (wireBits F) E).trans (latchHold_continues c (symbols c (wireBits F) E))
  rw [wireBits_length, hF] at h1
  refine Continues.congr h1 fun m _ => ?_
  split
  · rfl
  · rw [waveform_past h.tBit_pos]; rw [wireBits_length, hF]; omega

/-! ### The trace form -/

theorem traceWf_hold {n : Nat} {E : ExecRec} (h : traceWf E.trace = true) : traceWf (hold n E).trace = true :=
  traceWf_traceFill _ _ _ h

theorem traceWf_symbols (c : Cfg) (bs : List Level) {E : ExecRec} (h : traceWf E.trace = true) :
    traceWf (symbols c bs E).trace = true := by
  induction bs generalizing E with
  | nil => exact h
  | cons b bs ih => exact ih (traceWf_traceFill _ _ _ (traceWf_traceFill _ _ _ h))

theorem traceWf_latchHold {c : Cfg} {E : ExecRec} (h : traceWf E.trace = true) :
    traceWf (latchHold c E).trace = true := traceWf_traceFill _ _ _ h

theorem traceWf_frameOut (c : Cfg) (F : Frame) {E : ExecRec} (h : traceWf E.trace = true) :
    traceWf (frameOut c F E).trace = true := by
  rw [frameOut_eq_symbols]
  exact traceWf_latchHold (traceWf_symbols c _ h)

end Sys2Proof.Machine
end

