-- ==== Sys2Proof/Laws/PerInstr.lean ====
section
/-! SUPPORT. One family of statements, constructor by constructor: the opcode field of an operation's word is the
opcode of its row (30_encoding.md R77, R80, R85). -/

namespace Sys2Proof.Laws.OpcodeField

open Sys2Proof

/-- The word of an operation, where it has one, carries the operation's opcode in bits 31 to 28. -/
def Statement (i : Instr) : Prop := ∀ w, encode i = some w → opcodeOf w = opcodeOfInstr i

theorem pinWrite (level : Level) : Statement (.pinWrite level) := by
  intro w h
  cases h
  cases level <;> decide

theorem delayCycles (n : Nat) : Statement (.delayCycles n) := by
  intro w h
  simp only [encode] at h
  split at h
  · next hn =>
    cases h
    rw [opcodeOf_eq_iff, delayCycles_word_toNat hn]
    simp [opcodeOfInstr]
    omega
  · cases h

theorem sendBit (b : Level) : Statement (.sendBit b) := by
  intro w h
  cases h
  cases b <;> decide

theorem sendByte (v : Byte) : Statement (.sendByte v) := by
  intro w h
  cases h
  have := v.isLt
  rw [opcodeOf_eq_iff, sendByte_word_toNat]
  simp [opcodeOfInstr]
  omega

theorem sendLed (r g b : Byte) : Statement (.sendLed r g b) := by
  intro w h
  cases h
  have := r.isLt
  have := g.isLt
  have := b.isLt
  rw [opcodeOf_eq_iff, sendLed_word_toNat]
  simp [opcodeOfInstr]
  omega

theorem latch : Statement .latch := by
  intro w h
  cases h
  decide

theorem transmitFrame : Statement .transmitFrame := by
  intro w h
  cases h
  decide

end Sys2Proof.Laws.OpcodeField
end

