-- ==== Sys2Proof/Laws/Step.lean ====
section
/-! SUPPORT. What `exec`, `fetch` and `step` can do, once: the operation that a step runs, the edge that a step
makes, and a run's first step. -/

namespace Sys2Proof.Machine

/-- An operation that answers a next state has changed the record's level, cycle and trace only. -/
theorem exec_onlyLine {i : Instr} {s t : State} (h : exec i s = .next t) :
    t = withRecord s t.record ∧ t.record.fb = s.record.fb := by
  cases i <;> simp only [exec, execPinWrite, execDelayCycles, execSendBit, execSendByte, execSendLed, execLatch,
    execTransmitFrame] at h
  case transmitFrame =>
    split at h
    · cases h
    · next F hF =>
      split at h
      · cases h
        exact ⟨rfl, by rw [withRecord_record, frameOut_eq_symbols]; exact symbols_fb _ _ _⟩
      · cases h
  case sendByte => cases h; exact ⟨rfl, symbols_fb _ _ _⟩
  case sendLed => cases h; exact ⟨rfl, by rw [withRecord_record, ledOut, bytesOut_eq_symbols, symbols_fb]⟩
  all_goals cases h; exact ⟨rfl, rfl⟩

/-- TRANSMIT_FRAME of a record that holds a frame of `N_LEDS` entries. -/
theorem exec_transmitFrame {s : State} {F : Frame} (hf : s.record.fb = some F) (hF : F.length = s.cfg.nLeds) :
    exec .transmitFrame s = .next (withRecord s (frameOut s.cfg F s.record)) := by
  simp [exec, execTransmitFrame, hf, hF]

/-- Every operation keeps the trace's canonical form. -/
theorem exec_keeps_traceWf {i : Instr} {s t : State} (h : exec i s = .next t)
    (hw : traceWf s.record.trace = true) : traceWf t.record.trace = true := by
  cases i <;> simp only [exec, execPinWrite, execDelayCycles, execSendBit, execSendByte, execSendLed, execLatch,
    execTransmitFrame] at h
  case transmitFrame =>
    split at h
    · cases h
    · split at h
      · cases h; exact traceWf_frameOut _ _ hw
      · cases h
  case pinWrite => cases h; exact hw
  case delayCycles => cases h; exact traceWf_hold hw
  case sendBit => cases h; exact traceWf_symbols _ [_] hw
  case sendByte => cases h; exact traceWf_symbols _ _ hw
  case sendLed => cases h; rw [withRecord_record, ledOut, bytesOut_eq_symbols]; exact traceWf_symbols _ _ hw
  case latch => cases h; exact traceWf_latchHold hw

/-- Only TRANSMIT_FRAME without a frame faults. -/
theorem exec_fault {i : Instr} {s : State} {r : Fault} (h : exec i s = .fault r) :
    i = .transmitFrame ∧ s.record.fb = none := by
  cases i <;> simp only [exec, execPinWrite, execDelayCycles, execSendBit, execSendByte, execSendLed, execLatch,
    execTransmitFrame] at h
  case transmitFrame =>
    split at h
    · next hF => exact ⟨rfl, hF⟩
    · split at h <;> cases h
  all_goals cases h

/-! ### Fetch -/

theorem wordRefusal_none {w : Word} : wordRefusal w = none ↔ ∃ i, decode w = .op i := by
  unfold wordRefusal
  split <;> simp_all

theorem runRefusal_none {ws : List Word} : runRefusal ws = none ↔ ∀ w ∈ ws, ∃ i, decode w = .op i := by
  simp [runRefusal, List.findSome?_eq_none_iff, wordRefusal_none]

theorem fetch_nil : fetch [] = .edge := rfl

theorem fetch_cons {w : Word} {rest : List Word} {i : Instr} (hi : decode w = .op i)
    (hr : ∀ w' ∈ rest, ∃ j, decode w' = .op j) : fetch (w :: rest) = .op i rest := by
  have : runRefusal (w :: rest) = none := by
    rw [runRefusal_none]
    intro w' hw'
    rcases List.mem_cons.1 hw' with rfl | hw'
    · exact ⟨i, hi⟩
    · exact hr w' hw'
  simp [fetch, this, hi]

theorem fetch_eq_edge {ws : List Word} (h : fetch ws = .edge) : ws = [] := by
  cases ws with
  | nil => rfl
  | cons w rest =>
    unfold fetch at h
    split at h
    · cases h
    · simp only at h
      split at h <;> cases h

theorem fetch_eq_op {ws rest : List Word} {i : Instr} (h : fetch ws = .op i rest) :
    ∃ w, ws = w :: rest ∧ decode w = .op i ∧ ∀ w' ∈ rest, ∃ j, decode w' = .op j := by
  cases ws with
  | nil => cases h
  | cons w ws =>
    unfold fetch at h
    split at h
    · cases h
    · next hn =>
      simp only at h
      split at h
      · next hd =>
        cases h
        exact ⟨w, rfl, hd, fun w' hw' => runRefusal_none.1 hn w' (by simp [hw'])⟩
      · cases h
      · cases h

/-! ### Step -/

/-- What a step that answers a next state has done: one edge, or one operation. -/
theorem step_cases {s t : State} (h : step s = .next t) :
    Admitted s.cfg ∧
      ((s.ops = [] ∧ clockEdge s = .next t) ∨
       ∃ w rest i, s.ops = w :: rest ∧ decode w = .op i ∧ exec i (withOps s rest) = .next t) := by
  unfold step at h
  split at h
  · cases h
  next hA =>
  refine ⟨hA, ?_⟩
  split at h
  · next hf => exact .inl ⟨fetch_eq_edge hf, h⟩
  · next hf =>
    obtain ⟨w, hw, hd, -⟩ := fetch_eq_op hf
    exact .inr ⟨w, _, _, hw, hd, h⟩
  · cases h

/-- What an edge that answers a next state has done. -/
theorem clockEdge_next {s t : State} (h : clockEdge s = .next t) :
    ((inputsNow s).rst = true ∨ blockWf s.cfg s.blk = true) ∧
      ∃ σ, edge s.cfg s.blk (inputsNow s) = .next σ ∧ t = afterEdge s σ := by
  unfold clockEdge at h
  split at h
  · cases h
  next hc =>
  refine ⟨by simpa [Decidable.imp_iff_not_or] using hc, ?_⟩
  split at h
  · next σ he => cases h; exact ⟨σ, he, rfl⟩
  · cases h
  · cases h

theorem clockEdge_of_edge {s : State} {σ : Block}
    (hw : (inputsNow s).rst = true ∨ blockWf s.cfg s.blk = true)
    (he : edge s.cfg s.blk (inputsNow s) = .next σ) : clockEdge s = .next (afterEdge s σ) := by
  unfold clockEdge
  rw [if_neg (by rcases hw with h | h <;> simp [h]), he]

theorem step_edge {s : State} (hA : Admitted s.cfg) (ho : s.ops = []) : step s = clockEdge s := by
  simp [step, hA, ho, fetch_nil]

/-- With the block to move, a step makes the edge (R160). -/
theorem step_ready {s : State} (h : ReadyForEdge s) :
    ∃ σ, edge s.cfg s.blk (inputsNow s) = .next σ ∧ blockWf s.cfg σ = true ∧ step s = .next (afterEdge s σ) := by
  obtain ⟨hA, ho, hw⟩ := h
  obtain ⟨σ, he, hσ⟩ := edge_keeps_blockWf hA (inp := inputsNow s) (.inr hw)
  exact ⟨σ, he, hσ, by rw [step_edge hA ho, clockEdge_of_edge (.inr hw) he]⟩

/-! ### Runs -/

theorem run_zero (s : State) : Host.Core.run Sys2Proof.core 0 s = .next s := rfl

theorem run_succ_of_step {s t : State} (h : step s = .next t) (k : Nat) :
    Host.Core.run Sys2Proof.core (k + 1) s = Host.Core.run Sys2Proof.core k t := by
  have hs : Sys2Proof.core.step s = .next t := h
  simp only [Host.Core.run, hs]

theorem stateAfter_zero (s : State) : stateAfter s 0 = some s := rfl

theorem stateAfter_succ_of_step {s t : State} (h : step s = .next t) (k : Nat) :
    stateAfter s (k + 1) = stateAfter t k := by rw [stateAfter, run_succ_of_step h, stateAfter]

end Sys2Proof.Machine
end

