-- ==== Sys2Proof/Laws/Sequence.lean ====
section
/-! SUPPORT. Sequences of operations (40_pulse_sequencer.md R100): running one after another, and sequences of
SEND_BITs, SEND_BYTEs and SEND_LEDs as one sequence of symbols. -/

namespace Sys2Proof.Machine

@[simp] theorem execSeq_nil (s : State) : execSeq [] s = .next s := rfl

theorem execSeq_cons {i : Instr} {s t : State} (h : exec i s = .next t) (rest : List Instr) :
    execSeq (i :: rest) s = execSeq rest t := by simp only [execSeq, h]

theorem execSeq_append {xs : List Instr} {s t : State} (h : execSeq xs s = .next t) (ys : List Instr) :
    execSeq (xs ++ ys) s = execSeq ys t := by
  induction xs generalizing s with
  | nil => cases h; rfl
  | cons x xs ih =>
    rw [execSeq] at h
    split at h
    · next u hu => rw [List.cons_append, execSeq_cons hu]; exact ih h
    · cases h
    · cases h

theorem execSeq_sendBits (bs : List Level) (s : State) :
    execSeq (bs.map .sendBit) s = .next (withRecord s (symbols s.cfg bs s.record)) := by
  induction bs generalizing s with
  | nil => rfl
  | cons b bs ih =>
    rw [List.map_cons, execSeq_cons (t := withRecord s (symbol s.cfg b s.record)) rfl, ih]
    rfl

theorem execSeq_sendBytes (vs : List Byte) (s : State) :
    execSeq (vs.map .sendByte) s = .next (withRecord s (bytesOut s.cfg vs s.record)) := by
  induction vs generalizing s with
  | nil => rfl
  | cons v vs ih =>
    rw [List.map_cons, execSeq_cons (t := withRecord s (byteOut s.cfg v s.record)) rfl, ih]
    rfl

theorem execSeq_sendLeds (F : Frame) (s : State) :
    execSeq (F.map sendLedOf) s = .next (withRecord s (symbols s.cfg (wireBits F) s.record)) := by
  rw [← foldl_ledOut_eq_symbols]
  induction F generalizing s with
  | nil => rfl
  | cons p F ih =>
    rw [List.map_cons, execSeq_cons (t := withRecord s (ledOut s.cfg p s.record)) rfl, ih]
    rfl

/-- Every operation continues the record for its duration (R129, R152, R242). -/
theorem exec_continues {i : Instr} {s t : State} (hA : Admitted s.cfg) (h : exec i s = .next t) :
    ∃ f, Continues s.record t.record (durationOf s.cfg i) f := by
  cases i
  case pinWrite l => cases h; exact ⟨_, pinWrite_continues l s.record fun _ => true⟩
  case delayCycles n => cases h; exact ⟨_, hold_continues n s.record⟩
  case sendBit b =>
    cases h
    have h := symbol_continues s.cfg b s.record
    rw [hA.period b] at h
    exact ⟨_, h⟩
  case sendByte v => cases h; exact ⟨_, symbols_continues hA (bitsMsbFirst v) s.record⟩
  case sendLed r g b =>
    cases h
    have h := symbols_continues hA ((ledBytes ⟨r, g, b⟩).flatMap bitsMsbFirst) s.record
    rw [← bytesOut_eq_symbols] at h
    exact ⟨_, h⟩
  case latch => cases h; exact ⟨_, latchHold_continues s.cfg s.record⟩
  case transmitFrame =>
    simp only [exec, execTransmitFrame] at h
    split at h
    · cases h
    · split at h
      · next F hf hF => cases h; exact ⟨_, frameOut_continues hA hF s.record⟩
      · cases h

/-- Symbols move the record forward and write no other cycle, whatever the configuration. -/
theorem symbols_outside (c : Cfg) (bs : List Level) (E : ExecRec) :
    E.t ≤ (symbols c bs E).t ∧
      ∀ k, k < E.t ∨ (symbols c bs E).t ≤ k → traceAt (symbols c bs E).trace k = traceAt E.trace k := by
  induction bs generalizing E with
  | nil => exact ⟨Nat.le_refl _, fun _ _ => rfl⟩
  | cons b bs ih =>
    have h1 := symbol_continues c b E
    have h2 := ih (symbol c b E)
    have := h1.1
    refine ⟨by rw [symbols_cons]; omega, fun k hk => ?_⟩
    rw [symbols_cons] at *
    rw [h2.2 k (by omega), h1.outside (by omega)]

end Sys2Proof.Machine
end

