-- ==== Sys2Proof/Laws/Run.lean ====
section
/-! SUPPORT. Runs of the block: the inputs of later cycles, one step of a ready state, the bits of a frame as one
list, and the block's state in every cycle of a frame (`runs_frame`). -/

namespace Sys2Proof.Machine

/-! ### Inputs and steps -/

theorem inputsNow_eq (s : State) : inputsNow s = inputAt s 0 := by
  cases h : s.host <;> simp [inputsNow, inputAt, h]

@[simp] theorem inputAt_afterEdge (s : State) (σ : Block) (k : Nat) :
    inputAt (afterEdge s σ) k = inputAt s (k + 1) := by
  simp [inputAt, List.getD_eq_getElem?_getD]

theorem withBit_next {b : Option Level} {f : Level → Block} {σ : Block} (h : withBit b f = .next σ) :
    ∃ v, b = some v ∧ σ = f v := by
  cases b with
  | none => cases h
  | some v => cases h; exact ⟨v, rfl, rfl⟩

/-- While the block is not idle an edge reads `rst` only (R154, R163). -/
theorem edge_congr {c : Cfg} {σ : Block} {i i' : Inputs} (hr : i.rst = i'.rst) (h : σ.fsm ≠ .idle) :
    edge c σ i = edge c σ i' := by
  unfold edge
  rw [hr]
  cases hf : σ.fsm <;> simp_all

/-- A step of a ready state is its edge. -/
theorem step_of_edge {s : State} (h : ReadyForEdge s) {σ : Block}
    (he : edge s.cfg s.blk (inputsNow s) = .next σ) : step s = .next (afterEdge s σ) := by
  rw [step_edge h.1 h.2.1, clockEdge_of_edge (.inr h.2.2) he]

/-- With `rst` a step leaves ResetState, from any block state (R230). -/
theorem step_of_rst {s : State} (hA : Admitted s.cfg) (ho : s.ops = []) (hr : (inputsNow s).rst = true) :
    step s = .next (afterEdge s Block.reset) := by
  rw [step_edge hA ho]
  exact clockEdge_of_edge (.inl hr) (by simp [edge, hr])

theorem ready_of_reset {s : State} (hA : Admitted s.cfg) (ho : s.ops = []) (hb : s.blk = Block.reset) :
    ReadyForEdge s := ⟨hA, ho, by rw [hb]; exact blockWf_reset _⟩

/-- An operation does not read the pending words. -/
theorem exec_withOps {i : Instr} {s t : State} (h : exec i s = .next t) (ws : List Word) :
    exec i (withOps s ws) = .next (withOps t ws) := by
  cases i <;> simp only [exec, execPinWrite, execDelayCycles, execSendBit, execSendByte, execSendLed, execLatch,
    execTransmitFrame] at h ⊢
  case transmitFrame =>
    split at h
    · cases h
    · next F hF =>
      split at h
      · next hl => cases h; simp only [withOps_record, hF, withOps_cfg, hl, if_true]; rfl
      · cases h
  all_goals cases h; rfl

/-! ### The bits of a frame -/

/-- Bit `7 - q` of a byte is the `q`-th to be sent (R122). -/
theorem bitsMsbFirst_getElem? (v : Byte) {q : Nat} (h : q < 8) :
    (bitsMsbFirst v)[q]? = some (v.getLsbD (7 - q)) := by
  have e : bitsMsbFirst v = (List.range 8).map fun k => v.getLsbD (7 - k) := rfl
  simp [e, h]

theorem flatMap_bitsMsbFirst_getElem? (vs : List Byte) (j : Nat) :
    (vs.flatMap bitsMsbFirst)[j]? = (vs[j / 8]?).map fun v => v.getLsbD (7 - j % 8) := by
  induction vs generalizing j with
  | nil => simp
  | cons v vs ih =>
    rw [List.flatMap_cons]
    by_cases h : j < 8
    · rw [List.getElem?_append_left (by simpa using h), bitsMsbFirst_getElem? v h, Nat.div_eq_of_lt h,
        Nat.mod_eq_of_lt h]
      rfl
    · rw [List.getElem?_append_right (by simp; omega), ih]
      have e : j / 8 = (j - 8) / 8 + 1 := by omega
      simp only [bitsMsbFirst_length]
      rw [e, List.getElem?_cons_succ, show (j - 8) % 8 = j % 8 by omega]

theorem wireBytes_getElem? (F : Frame) {i : Nat} {ch : Fin 4} (hi : i < F.length) (hc : ch.val ≤ 2) :
    (wireBytes F)[3 * i + ch.val]? = frameRead (some F) i ch := by
  induction F generalizing i with
  | nil => simp at hi
  | cons p F ih =>
    have e : wireBytes (p :: F) = p.g :: p.r :: p.b :: wireBytes F := rfl
    rw [e]
    cases i with
    | zero =>
      match ch, hc with
      | 0, _ => rfl
      | 1, _ => rfl
      | 2, _ => rfl
    | succ i =>
      have e : 3 * (i + 1) + ch.val = (3 * i + ch.val) + 1 + 1 + 1 := by omega
      rw [e, List.getElem?_cons_succ, List.getElem?_cons_succ, List.getElem?_cons_succ, ih (by simpa using hi)]
      simp [frameRead]

/-- `FrameBit(fb, j)` is the `j`-th bit on the wire. -/
theorem frameBit_eq_wireBits {F : Frame} {j : Nat} (hj : j < 24 * F.length) :
    frameBit (some F) j = (wireBits F)[j]? := by
  rw [wireBits, flatMap_bitsMsbFirst_getElem?, frameBit, wireBit,
    ← wireBytes_getElem? F (by omega) (by show j % 24 / 8 ≤ 2; omega)]
  rw [show 3 * (j / 24) + j % 24 / 8 = j / 8 by omega]

/-! ### The positions of a frame -/

/-- The block in the first cycle of the `j`-th symbol of `F`, whose bit is `b`. -/
def symbolStart (c : Cfg) (F : Frame) (j : Nat) (b : Level) : Block where
  fsm := .tx
  led := j / 24
  ch := ⟨j % 24 / 8, by omega⟩
  bit := ⟨7 - j % 8, by omega⟩
  phase := .hi
  cnt := th c b
  fb := some F
  pin := true

/-- The first cycle of the latch of `F`. -/
def latchStart (c : Cfg) (F : Frame) : Block where
  fsm := .latch
  led := c.nLeds - 1
  ch := 2
  bit := 0
  phase := .lo
  cnt := tLatch c
  fb := some F
  pin := false

theorem nextPos_at (j : Nat) :
    nextPos (j / 24) ⟨j % 24 / 8, by omega⟩ ⟨7 - j % 8, by omega⟩ =
      ((j + 1) / 24, ⟨(j + 1) % 24 / 8, by omega⟩, ⟨7 - (j + 1) % 8, by omega⟩) := by
  unfold nextPos
  split
  · next h =>
    simp only at h
    refine Prod.ext (by simp only; omega) (Prod.ext (Fin.ext ?_) (Fin.ext ?_)) <;> simp only <;> omega
  · next h =>
    simp only at h
    split
    · next h2 =>
      simp only at h2
      refine Prod.ext (by simp only; omega) (Prod.ext (Fin.ext ?_) (Fin.ext ?_)) <;> simp only
      · omega
      · show 7 = _; omega
    · next h2 =>
      simp only at h2
      refine Prod.ext (by simp only; omega) (Prod.ext (Fin.ext ?_) (Fin.ext ?_))
      · show 0 = (j + 1) % 24 / 8; omega
      · show 7 = 7 - (j + 1) % 8; omega

theorem isLast_at (c : Cfg) (σ : Block) {j : Nat} (h1 : σ.led = j / 24) (h2 : σ.ch.val = j % 24 / 8)
    (h3 : σ.bit.val = 7 - j % 8) : isLast c σ = true ↔ j + 1 = 24 * c.nLeds := by
  rw [isLast_iff, Fin.ext_iff, Fin.ext_iff, h1, h2, h3]
  show j / 24 + 1 = c.nLeds ∧ j % 24 / 8 = 2 ∧ 7 - j % 8 = 0 ↔ _
  omega

/-! ### Runs -/

/-- The state reached `k` cycles after `s` with the block in `σ`. -/
def atCycle (s : State) (k : Nat) (σ : Block) : State := { s with blk := σ, host := s.host.drop k }

/-- `k` steps of `s` leave the block in `σ` and nothing else changed but the host's script. -/
abbrev Reaches (s : State) (k : Nat) (σ : Block) : Prop := stateAfter s k = some (atCycle s k σ)

theorem stateAfter_add (s : State) (a b : Nat) : stateAfter s (a + b) = (stateAfter s a).bind (stateAfter · b) := by
  induction a generalizing s with
  | zero => simp [stateAfter_zero]
  | succ a ih =>
    rw [Nat.add_right_comm]
    cases h : step s with
    | next t => rw [stateAfter_succ_of_step h, stateAfter_succ_of_step h, ih]
    | fault r =>
      have hs : Sys2Proof.core.step s = .fault r := h
      simp only [stateAfter, Host.Core.run, hs]; rfl
    | refused r =>
      have hs : Sys2Proof.core.step s = .refused r := h
      simp only [stateAfter, Host.Core.run, hs]; rfl

@[simp] theorem inputsNow_atCycle (s : State) (k : Nat) (σ : Block) : inputsNow (atCycle s k σ) = inputAt s k := by
  rw [inputsNow_eq]
  simp [inputAt, atCycle, List.getD_eq_getElem?_getD]

theorem Reaches.zero (s : State) : Reaches s 0 s.blk := rfl

/-- One more cycle of a run. -/
theorem Reaches.succ {s : State} {k : Nat} {σ σ' : Block} (h : Reaches s k σ) (hA : Admitted s.cfg)
    (ho : s.ops = []) (hw : blockWf s.cfg σ = true) (he : edge s.cfg σ (inputAt s k) = .next σ') :
    Reaches s (k + 1) σ' := by
  have hs : step (atCycle s k σ) = .next (afterEdge (atCycle s k σ) σ') :=
    step_of_edge (s := atCycle s k σ) ⟨hA, ho, hw⟩ (by rw [inputsNow_atCycle]; exact he)
  rw [Reaches, stateAfter_add, h]
  show stateAfter (atCycle s k σ) (0 + 1) = _
  rw [stateAfter_succ_of_step hs, stateAfter_zero]
  simp [atCycle, afterEdge]

theorem Reaches.doutAt {s : State} {k : Nat} {σ : Block} (h : Reaches s k σ) : doutAt s k = some (dout σ) := by
  rw [Machine.doutAt, h]; rfl

theorem Reaches.busyAt {s : State} {k : Nat} {σ : Block} (h : Reaches s k σ) : busyAt s k = some (busy σ) := by
  rw [Machine.busyAt, h]; rfl

/-- The state the run is in after `k` cycles satisfies R38. -/
theorem reaches_wf {s : State} (hA : Admitted s.cfg) (ho : s.ops = []) (hw : blockWf s.cfg s.blk = true)
    (k : Nat) : ∃ σ, Reaches s k σ ∧ blockWf s.cfg σ = true := by
  induction k with
  | zero => exact ⟨_, Reaches.zero s, hw⟩
  | succ k ih =>
    obtain ⟨σ, h, hσ⟩ := ih
    obtain ⟨σ', he, hσ'⟩ := edge_keeps_blockWf hA (inp := inputAt s k) (.inr hσ)
    exact ⟨σ', h.succ hA ho hσ he, hσ'⟩

theorem Reaches.unique {s : State} {k : Nat} {σ σ' : Block} (h : Reaches s k σ) (h' : Reaches s k σ') : σ = σ' := by
  have : some (atCycle s k σ) = some (atCycle s k σ') := h.symm.trans h'
  exact congrArg State.blk (Option.some.inj this)

/-- A phase counts down to its last cycle. -/
theorem Reaches.countDown {s : State} {k : Nat} {σ : Block} (h : Reaches s k σ) (hA : Admitted s.cfg)
    (ho : s.ops = []) (hw : blockWf s.cfg s.blk = true) (hf : σ.fsm ≠ .idle) {m : Nat} (hm : m < σ.cnt)
    (hr : ∀ q, q < k + m → (inputAt s q).rst = false) : Reaches s (k + m) { σ with cnt := σ.cnt - m } := by
  induction m with
  | zero => exact h
  | succ m ih =>
    have h1 := ih (by omega) fun q hq => hr q (by omega)
    obtain ⟨σ', h2, hσ'⟩ := reaches_wf hA ho hw (k + m)
    have e := h1.unique h2
    refine h1.succ hA ho (e ▸ hσ') ?_
    have hc : 1 < σ.cnt - m := by omega
    have hr' := hr (k + m) (by omega)
    simp only [edge, hr']
    cases hf' : σ.fsm
    · exact absurd hf' hf
    · cases hφ : σ.phase <;> simp [stepHigh, stepLow, hc, Machine.countDown, Nat.sub_sub]
    · simp [stepLatch, hc, Machine.countDown, Nat.sub_sub]

/-- The low phase of a symbol begins `TH` cycles after its start. -/
theorem Reaches.lowPhase {s : State} {k : Nat} {σ : Block} {b : Level} (h : Reaches s k σ) (hA : Admitted s.cfg)
    (ho : s.ops = []) (hw : blockWf s.cfg s.blk = true) (hf : σ.fsm = .tx) (hφ : σ.phase = .hi) (hc : 1 ≤ σ.cnt)
    (hb : wireBit σ.fb σ.led σ.ch σ.bit = some b)
    (hr : ∀ q, q < k + σ.cnt → (inputAt s q).rst = false) :
    Reaches s (k + σ.cnt) { σ with phase := .lo, cnt := tl s.cfg b, pin := false } := by
  have h1 := h.countDown hA ho hw (by rw [hf]; simp) (m := σ.cnt - 1) (by omega) fun q hq => hr q (by omega)
  obtain ⟨σ', h2, hσ'⟩ := reaches_wf hA ho hw (k + (σ.cnt - 1))
  have e := h1.unique h2
  have h3 := h1.succ (σ' := { σ with phase := .lo, cnt := tl s.cfg b, pin := false }) hA ho (e ▸ hσ') (by
    have : ¬ 1 < σ.cnt - (σ.cnt - 1) := by omega
    simp [edge, hr (k + (σ.cnt - 1)) (by omega), hf, hφ, stepHigh, this, withBit, hb])
  rwa [show k + (σ.cnt - 1) + 1 = k + σ.cnt by omega] at h3

/-- The latch begins after the low phase of the last symbol. -/
theorem Reaches.latch {s : State} {k : Nat} {σ : Block} (h : Reaches s k σ) (hA : Admitted s.cfg)
    (ho : s.ops = []) (hw : blockWf s.cfg s.blk = true) (hf : σ.fsm = .tx) (hφ : σ.phase = .lo) (hc : 1 ≤ σ.cnt)
    (hl : isLast s.cfg σ = true) (hr : ∀ q, q < k + σ.cnt → (inputAt s q).rst = false) :
    Reaches s (k + σ.cnt) { σ with fsm := .latch, cnt := tLatch s.cfg } := by
  have h1 := h.countDown hA ho hw (by rw [hf]; simp) (m := σ.cnt - 1) (by omega) fun q hq => hr q (by omega)
  obtain ⟨σ', h2, hσ'⟩ := reaches_wf hA ho hw (k + (σ.cnt - 1))
  have e := h1.unique h2
  have hl' : ∀ n, isLast s.cfg { σ with fsm := .tx, phase := .lo, cnt := n } = true := fun _ => hl
  have h3 := h1.succ (σ' := { σ with fsm := .latch, cnt := tLatch s.cfg }) hA ho (e ▸ hσ') (by
    have : ¬ 1 < σ.cnt - (σ.cnt - 1) := by omega
    simp [edge, hr (k + (σ.cnt - 1)) (by omega), hf, hφ, stepLow, this, hl'])
  rwa [show k + (σ.cnt - 1) + 1 = k + σ.cnt by omega] at h3

/-- The block is in ResetState after the latch. -/
theorem Reaches.done {s : State} {k : Nat} {σ : Block} (h : Reaches s k σ) (hA : Admitted s.cfg)
    (ho : s.ops = []) (hw : blockWf s.cfg s.blk = true) (hf : σ.fsm = .latch) (hc : 1 ≤ σ.cnt)
    (hr : ∀ q, q < k + σ.cnt → (inputAt s q).rst = false) : Reaches s (k + σ.cnt) Block.reset := by
  have h1 := h.countDown hA ho hw (by rw [hf]; simp) (m := σ.cnt - 1) (by omega) fun q hq => hr q (by omega)
  obtain ⟨σ', h2, hσ'⟩ := reaches_wf hA ho hw (k + (σ.cnt - 1))
  have e := h1.unique h2
  have h3 := h1.succ (σ' := Block.reset) hA ho (e ▸ hσ') (by
    have : ¬ 1 < σ.cnt - (σ.cnt - 1) := by omega
    simp [edge, hr (k + (σ.cnt - 1)) (by omega), hf, stepLatch, this])
  rwa [show k + (σ.cnt - 1) + 1 = k + σ.cnt by omega] at h3

/-- The next symbol begins `T_BIT` cycles after one that is not the last. -/
theorem Reaches.nextSymbol {s : State} {k j : Nat} {F : Frame} {b b' : Level}
    (h : Reaches s k (symbolStart s.cfg F j b)) (hA : Admitted s.cfg) (ho : s.ops = [])
    (hw : blockWf s.cfg s.blk = true) (hb : frameBit (some F) j = some b)
    (hb' : frameBit (some F) (j + 1) = some b') (hj : j + 1 < 24 * s.cfg.nLeds)
    (hr : ∀ q, q < k + tBit s.cfg → (inputAt s q).rst = false) :
    Reaches s (k + tBit s.cfg) (symbolStart s.cfg F (j + 1) b') := by
  have hp := hA.period b
  have hlo := h.lowPhase (b := b) hA ho hw rfl rfl (hA.th_pos b) hb fun q hq => hr q (by
    have : q < k + th s.cfg b := hq
    omega)
  have htl := hA.tl_pos b
  have h1 := hlo.countDown hA ho hw (by simp [symbolStart]) (m := tl s.cfg b - 1) (by simp only; omega)
    fun q hq => hr q (by have : q < k + th s.cfg b + (tl s.cfg b - 1) := hq; omega)
  obtain ⟨σ', h2, hσ'⟩ := reaches_wf hA ho hw (k + th s.cfg b + (tl s.cfg b - 1))
  have e := h1.unique h2
  have hl : ∀ n, isLast s.cfg { symbolStart s.cfg F j b with phase := .lo, cnt := n, pin := false } = false := by
    intro n
    rw [← Bool.not_eq_true, isLast_at (j := j) _ _ rfl rfl rfl]
    omega
  have h3 := h1.succ (σ' := symbolStart s.cfg F (j + 1) b') hA ho (e ▸ hσ') (by
    have hc : ¬ 1 < tl s.cfg b - (tl s.cfg b - 1) := by omega
    have hr' : (inputAt s (k + th s.cfg b + (tl s.cfg b - 1))).rst = false := hr _ (by omega)
    simp only [edge, show (symbolStart s.cfg F j b).cnt = th s.cfg b from rfl, hr', stepLow, hc, hl]
    simp only [symbolStart, nextPos_at, beginSymbol, frameBit] at hb' ⊢
    rw [hb']; rfl)
  have ek : k + (symbolStart s.cfg F j b).cnt + (tl s.cfg b - 1) + 1 = k + tBit s.cfg := by
    show k + th s.cfg b + (tl s.cfg b - 1) + 1 = _
    omega
  rwa [ek] at h3

/-- A frame is accepted: the first symbol begins in the next cycle (R155). -/
theorem Reaches.accepted {s : State} {k : Nat} {b : Level} (h : Reaches s k Block.reset) (hA : Admitted s.cfg)
    (ho : s.ops = []) (hr : (inputAt s k).rst = false) (hs : (inputAt s k).start = true)
    (hb : frameBit (some (sampledFrame s.cfg (inputAt s k))) 0 = some b) :
    Reaches s (k + 1) (symbolStart s.cfg (sampledFrame s.cfg (inputAt s k)) 0 b) := by
  refine h.succ hA ho (blockWf_reset _) ?_
  have hb' : wireBit (some (sampledFrame s.cfg (inputAt s k))) 0 0 7 = some b := hb
  simp [edge, hr, hs, Block.reset, stepIdle, beginSymbol, hb', withBit, symbolStart]

/-- Every bit of a whole frame is there. -/
theorem frameBit_some {c : Cfg} {F : Frame} (hF : F.length = c.nLeds) {j : Nat} (hj : j < 24 * c.nLeds) :
    ∃ b, frameBit (some F) j = some b := by
  rw [frameBit_eq_wireBits (by omega)]
  exact ⟨_, List.getElem?_eq_getElem (by rw [wireBits_length]; omega)⟩

/-- The starts of the symbols of an accepted frame. -/
theorem runs_symbols {s : State} (hA : Admitted s.cfg) (ho : s.ops = []) (hb : s.blk = Block.reset)
    (hs : (inputAt s 0).start = true) (hr : NoReset s (dFrame s.cfg + 1)) {j : Nat} (hj : j < 24 * s.cfg.nLeds) :
    ∃ b, frameBit (some (sampledFrame s.cfg (inputAt s 0))) j = some b ∧
      Reaches s (1 + j * tBit s.cfg) (symbolStart s.cfg (sampledFrame s.cfg (inputAt s 0)) j b) := by
  have hF : (sampledFrame s.cfg (inputAt s 0)).length = s.cfg.nLeds := sampledFrame_length _ _
  have hw : blockWf s.cfg s.blk = true := by rw [hb]; exact blockWf_reset _
  induction j with
  | zero =>
    obtain ⟨b, h⟩ := frameBit_some hF hj
    have h0 : Reaches s 0 Block.reset := hb ▸ Reaches.zero s
    exact ⟨b, h, by simpa using h0.accepted hA ho (hr 0 (by omega)) hs h⟩
  | succ j ih =>
    obtain ⟨b, h, hR⟩ := ih (by omega)
    obtain ⟨b', h'⟩ := frameBit_some hF hj
    refine ⟨b', h', ?_⟩
    have : (j + 1) * tBit s.cfg ≤ 24 * s.cfg.nLeds * tBit s.cfg := Nat.mul_le_mul_right _ (by omega)
    rw [Nat.succ_mul] at this
    have := hR.nextSymbol hA ho hw h h' hj fun q hq => hr q (by rw [dFrame]; omega)
    rwa [Nat.add_assoc, ← Nat.succ_mul] at this

/-- Every cycle of every symbol of an accepted frame. -/
theorem runs_symbol_cycles {s : State} (hA : Admitted s.cfg) (ho : s.ops = []) (hb : s.blk = Block.reset)
    (hs : (inputAt s 0).start = true) (hr : NoReset s (dFrame s.cfg + 1)) {j m : Nat}
    (hj : j < 24 * s.cfg.nLeds) (hm : m < tBit s.cfg) :
    ∃ b σ, frameBit (some (sampledFrame s.cfg (inputAt s 0))) j = some b ∧ Reaches s (1 + j * tBit s.cfg + m) σ ∧
      σ.fsm = .tx ∧ σ.pin = decide (m < th s.cfg b) := by
  have hw : blockWf s.cfg s.blk = true := by rw [hb]; exact blockWf_reset _
  obtain ⟨b, h, hR⟩ := runs_symbols hA ho hb hs hr hj
  have : (j + 1) * tBit s.cfg ≤ 24 * s.cfg.nLeds * tBit s.cfg := Nat.mul_le_mul_right _ (by omega)
  rw [Nat.succ_mul] at this
  have hp := hA.period b
  by_cases hh : m < th s.cfg b
  · refine ⟨b, _, h, hR.countDown hA ho hw (by simp [symbolStart]) (m := m) hh fun q hq => hr q (by rw [dFrame]; omega), rfl, ?_⟩
    simp [symbolStart, hh]
  · have hlo := hR.lowPhase (b := b) hA ho hw rfl rfl (hA.th_pos b) h fun q hq => hr q (by
      have : q < 1 + j * tBit s.cfg + th s.cfg b := hq
      rw [dFrame]; omega)
    have h1 := hlo.countDown hA ho hw (by simp [symbolStart]) (m := m - th s.cfg b) (by simp only; omega)
      fun q hq => hr q (by have : q < 1 + j * tBit s.cfg + th s.cfg b + (m - th s.cfg b) := hq; rw [dFrame]; omega)
    have ek : 1 + j * tBit s.cfg + (symbolStart s.cfg (sampledFrame s.cfg (inputAt s 0)) j b).cnt + (m - th s.cfg b)
        = 1 + j * tBit s.cfg + m := by
      show 1 + j * tBit s.cfg + th s.cfg b + (m - th s.cfg b) = _
      omega
    rw [ek] at h1
    exact ⟨b, _, h, h1, rfl, by simp [hh]⟩

/-- The first cycle of the latch of an accepted frame. -/
theorem runs_latchStart {s : State} (hA : Admitted s.cfg) (ho : s.ops = []) (hb : s.blk = Block.reset)
    (hs : (inputAt s 0).start = true) (hr : NoReset s (dFrame s.cfg + 1)) :
    Reaches s (1 + 24 * s.cfg.nLeds * tBit s.cfg) (latchStart s.cfg (sampledFrame s.cfg (inputAt s 0))) := by
  have hw : blockWf s.cfg s.blk = true := by rw [hb]; exact blockWf_reset _
  have hN := hA.constraints.leds
  obtain ⟨j, hj⟩ : ∃ j, j + 1 = 24 * s.cfg.nLeds := ⟨24 * s.cfg.nLeds - 1, by omega⟩
  obtain ⟨b, h, hR⟩ := runs_symbols hA ho hb hs hr (j := j) (by omega)
  have hp := hA.period b
  have hD : dFrame s.cfg = j * tBit s.cfg + tBit s.cfg + tLatch s.cfg := by rw [dFrame, ← hj, Nat.succ_mul]
  have hlo := hR.lowPhase (b := b) hA ho hw rfl rfl (hA.th_pos b) h fun q hq => hr q (by
    have : q < 1 + j * tBit s.cfg + th s.cfg b := hq
    omega)
  have hla := hlo.latch hA ho hw rfl rfl (hA.tl_pos b) ((isLast_at (j := j) _ _ rfl rfl rfl).2 hj)
    fun q hq => hr q (by have : q < 1 + j * tBit s.cfg + th s.cfg b + tl s.cfg b := hq; omega)
  have ek : 1 + j * tBit s.cfg + (symbolStart s.cfg (sampledFrame s.cfg (inputAt s 0)) j b).cnt + tl s.cfg b
      = 1 + 24 * s.cfg.nLeds * tBit s.cfg := by
    show 1 + j * tBit s.cfg + th s.cfg b + tl s.cfg b = _
    rw [← hj, Nat.succ_mul]; omega
  simp only [ek] at hla
  have el : latchStart s.cfg (sampledFrame s.cfg (inputAt s 0)) =
      { fsm := .latch, led := j / 24, ch := ⟨j % 24 / 8, by omega⟩, bit := ⟨7 - j % 8, by omega⟩, phase := .lo,
        cnt := tLatch s.cfg, fb := some (sampledFrame s.cfg (inputAt s 0)), pin := false } := by
    simp only [latchStart, Block.mk.injEq, true_and, and_true]
    refine ⟨by omega, Fin.ext ?_, Fin.ext ?_⟩
    · show 2 = j % 24 / 8; omega
    · show 0 = 7 - j % 8; omega
  rw [el]
  exact hla

/-- Every cycle of the latch of an accepted frame. -/
theorem runs_latch {s : State} (hA : Admitted s.cfg) (ho : s.ops = []) (hb : s.blk = Block.reset)
    (hs : (inputAt s 0).start = true) (hr : NoReset s (dFrame s.cfg + 1)) {m : Nat} (hm : m < tLatch s.cfg) :
    ∃ σ, Reaches s (1 + 24 * s.cfg.nLeds * tBit s.cfg + m) σ ∧ σ.fsm = .latch ∧ σ.pin = false :=
  ⟨_, (runs_latchStart hA ho hb hs hr).countDown hA ho (by rw [hb]; exact blockWf_reset _) (by simp [latchStart])
    (m := m) hm fun q hq => hr q (by rw [dFrame]; omega), rfl, rfl⟩

/-- The first idle cycle after an accepted frame (R162). -/
theorem runs_frame {s : State} (hA : Admitted s.cfg) (ho : s.ops = []) (hb : s.blk = Block.reset)
    (hs : (inputAt s 0).start = true) (hr : NoReset s (dFrame s.cfg + 1)) :
    Reaches s (1 + dFrame s.cfg) Block.reset := by
  have h := (runs_latchStart hA ho hb hs hr).done hA ho (by rw [hb]; exact blockWf_reset _) rfl hA.tLatch_pos
    fun q hq => hr q (by
      have : q < 1 + 24 * s.cfg.nLeds * tBit s.cfg + tLatch s.cfg := hq
      rw [dFrame]; omega)
  rwa [show 1 + 24 * s.cfg.nLeds * tBit s.cfg + (latchStart s.cfg (sampledFrame s.cfg (inputAt s 0))).cnt =
    1 + dFrame s.cfg from by show _ + tLatch s.cfg = _; rw [dFrame]; omega] at h

end Sys2Proof.Machine
end

