-- ==== Sys2Proof/Tests/Slice0.lean ====
section
/-! SUPPORT. Tests on fixed values, each taken from 95_test_vectors.md or worked out by hand from a rule, and for every
statement with hypotheses a witness that meets them (`witness_<statement>`), clause by clause. -/

namespace Sys2Proof.Tests

open Sys2Proof Sys2Proof.Machine

/-! ### Helpers -/

/-- The record after an operation, if it answers a next state. -/
def recordAfter (i : Instr) (s : State) : Option ExecRec :=
  match exec i s with
  | .next t => some t.record
  | .fault _ => none
  | .refused _ => none

/-- The record after a sequence of operations, if it answers a next state. -/
def recordAfterAll (is : List Instr) (s : State) : Option ExecRec :=
  match execSeq is s with
  | .next t => some t.record
  | .fault _ => none
  | .refused _ => none

/-- The refusal of a step, if it is refused. -/
def refusalOf (s : State) : Option Refusal :=
  match step s with
  | .next _ => none
  | .fault _ => none
  | .refused r => some r

/-- The fault of a step, if it faults. -/
def faultOf (s : State) : Option Fault :=
  match step s with
  | .next _ => none
  | .fault r => some r
  | .refused _ => none

/-- The reset state with another record. -/
def fromRecord (pin : Level) (t : Nat) (fb : Option Frame) : State :=
  { State.reset with record := { pin := pin, t := t, trace := [], fb := fb } }

/-- The high cycles and the end of a record's trace from cycle 0 on: the cycles below `n` with level 1. -/
def highCycles (n : Nat) (E : ExecRec) : List Nat := (List.range n).filter fun k => traceAt E.trace k == some true

/-- The frame `colors1` of V-L1. -/
def colors1 : Frame := [⟨0xFF, 0, 0⟩, ⟨0, 0xFF, 0⟩, ⟨0, 0, 0xFF⟩, ⟨0xFF, 0xFF, 0⟩]

/-- `colors1` on the port (V-L1). -/
def colors1Port : Nat := 0xFFFF000000FF00FF00FF0000

/-- TC with the block in the given state; the cycle's inputs are `rst`, `start` and `colors1`. -/
def blockState (σ : Block) (rst start : Bool) : State :=
  { State.reset with blk := σ, host := [⟨rst, start, colors1Port⟩] }

/-- A block in `TX` sending `colors1`. -/
def txBlock (led : Nat) (ch : Fin 4) (bit : Fin 8) (phase : Phase) (cnt : Nat) (pin : Level) : Block :=
  { fsm := .tx, led := led, ch := ch, bit := bit, phase := phase, cnt := cnt, fb := some colors1, pin := pin }

/-- A block in `LATCH` after `colors1`. -/
def latchBlock (cnt : Nat) : Block :=
  { fsm := .latch, led := 3, ch := 2, bit := 0, phase := .lo, cnt := cnt, fb := some colors1, pin := false }

/-! ### Well-formedness -/

/-- R79: the largest count. -/
theorem test_wf_delay_max : wellFormed (.delayCycles 0x0FFFFFFF) = true := by decide

/-- R85: "A DELAY_CYCLES with `N >= 2^28` has no encoding". -/
theorem test_wf_delay_too_big : wellFormed (.delayCycles 0x10000000) = false := by decide

theorem test_encode_delay_too_big : encode (.delayCycles 0x10000000) = none := by decide

/-! ### Decode and encode: V-E1 to V-E24, each word written from the encoding of 30_encoding.md R78 to R80 -/

theorem test_decode_pinWrite :
    decode 0b00010000000000000000000000000000#32 = .op (.pinWrite false) ∧
    decode 0b00010000000000000000000000000001#32 = .op (.pinWrite true) ∧
    decode 0x10000002#32 = .reservedBits ∧ decode 0x18000000#32 = .reservedBits := by decide

theorem test_decode_delayCycles :
    decode 0b00100000000000000000000000000000#32 = .op (.delayCycles 0) ∧
    decode 0b00101111111111111111111111111111#32 = .op (.delayCycles 268435455) ∧
    decode 0b00100000000000000010011100010000#32 = .op (.delayCycles 10000) := by decide

theorem test_decode_sendBit :
    decode 0b00110000000000000000000000000000#32 = .op (.sendBit false) ∧
    decode 0b00110000000000000000000000000001#32 = .op (.sendBit true) ∧
    decode 0x30000003#32 = .reservedBits := by decide

theorem test_decode_sendByte :
    decode 0b01000000000000000000000010100101#32 = .op (.sendByte 0xA5) ∧
    decode 0x40000100#32 = .reservedBits := by decide

theorem test_decode_sendLed :
    decode 0b01010000000100100011010001010110#32 = .op (.sendLed 0x12 0x34 0x56) ∧
    decode 0x50FFFFFF#32 = .op (.sendLed 0xFF 0xFF 0xFF) ∧ decode 0x51000000#32 = .reservedBits := by decide

theorem test_decode_latch :
    decode 0b01100000000000000000000000000000#32 = .op .latch ∧ decode 0x60000001#32 = .reservedBits := by decide

theorem test_decode_transmitFrame :
    decode 0b01110000000000000000000000000000#32 = .op .transmitFrame ∧
    decode 0x70000010#32 = .reservedBits := by decide

theorem test_decode_reserved :
    decode 0x00000000#32 = .reservedOpcode ∧ decode 0x0FFFFFFF#32 = .reservedOpcode ∧
    decode 0x80000000#32 = .reservedOpcode ∧ decode 0xF0000000#32 = .reservedOpcode ∧
    decode 0xFFFFFFFF#32 = .reservedOpcode := by decide

/-- The encode vectors. -/
theorem test_encode :
    encode (.sendLed 0xFF 0x00 0x00) = some 0x50FF0000#32 ∧ encode (.delayCycles 9) = some 0x20000009#32 := by decide

theorem test_decodeTableWord :
    decodeTableWord 32 0x50123456 = some (.sendLed 0x12 0x34 0x56) ∧ decodeTableWord 32 0x00000000 = none := by decide

/-! ### Assembler (R88) -/

/-- `SEND_LED 0x12, 0x34, 0x56` encodes to `0x50123456`. -/
theorem test_assemble_sendLed :
    assembleLine configTC
      ['S', 'E', 'N', 'D', '_', 'L', 'E', 'D', ' ', '0', 'x', '1', '2', ',', ' ', '0', 'x', '3', '4', ',', ' ',
        '0', 'x', '5', '6'] = .word 0x50123456#32 := by decide

/-- `DELAY_CYCLES T_LATCH` encodes to `0x20002710` in TC. -/
theorem test_assemble_delay_latch :
    assembleLine configTC
      ['D', 'E', 'L', 'A', 'Y', '_', 'C', 'Y', 'C', 'L', 'E', 'S', ' ', 'T', '_', 'L', 'A', 'T', 'C', 'H'] =
      .word 0x20002710#32 := by decide

/-- `SEND_BYTE 256` is an assembly error. -/
theorem test_assemble_byte_range :
    assembleLine configTC ['S', 'E', 'N', 'D', '_', 'B', 'Y', 'T', 'E', ' ', '2', '5', '6'] = .error := by decide

/-- A comment line gives no word, and a program keeps the order of its lines. -/
theorem test_assemble_program :
    assemble configTC [[';', ' ', 'x'], ['L', 'A', 'T', 'C', 'H', ' ', ';'],
      ['P', 'I', 'N', '_', 'W', 'R', 'I', 'T', 'E', ' ', '1']] = some [0x60000000#32, 0x10000001#32] := by decide

/-! ### The operations -/

/-- V-P1. -/
theorem test_pinWrite : recordAfter (.pinWrite true) (fromRecord false 0 none) = some ⟨true, 0, [], none⟩ := by decide

/-- V-P4: the level 1 is never seen. -/
theorem test_pinWrite_hidden :
    recordAfterAll [.pinWrite true, .pinWrite false, .delayCycles 4] (fromRecord false 0 none) =
      some ⟨false, 4, [⟨0, 4, false⟩], none⟩ := by decide

/-- V-P2. -/
theorem test_delayCycles :
    recordAfter (.delayCycles 3) (fromRecord true 5 none) = some ⟨true, 8, [⟨5, 8, true⟩], none⟩ := by decide

/-- V-P3. -/
theorem test_delayCycles_zero :
    recordAfter (.delayCycles 0) (fromRecord true 5 none) = some ⟨true, 5, [], none⟩ := by decide

/-- V-B1, from level 1 (V-B2a). -/
theorem test_sendBit_zero :
    recordAfter (.sendBit false) (fromRecord true 0 none) =
      some ⟨false, 12, [⟨3, 12, false⟩, ⟨0, 3, true⟩], none⟩ := by decide

/-- V-B2. -/
theorem test_sendBit_one :
    recordAfter (.sendBit true) (fromRecord false 0 none) =
      some ⟨false, 12, [⟨6, 12, false⟩, ⟨0, 6, true⟩], none⟩ := by decide

/-- V-B5: the high cycles of 0xA5. -/
theorem test_sendByte_A5 :
    (recordAfter (.sendByte 0xA5) (fromRecord false 0 none)).map (fun E => (E.t, highCycles 96 E)) =
      some (96, [0, 1, 2, 3, 4, 5, 12, 13, 14, 24, 25, 26, 27, 28, 29, 36, 37, 38, 48, 49, 50, 60, 61, 62, 63, 64,
        65, 72, 73, 74, 84, 85, 86, 87, 88, 89]) := by decide

/-- V-B7: the last symbol of 0x01. -/
theorem test_sendByte_01 :
    (recordAfter (.sendByte 0x01) (fromRecord false 0 none)).map (fun E => E.trace.take 3) =
      some [⟨90, 96, false⟩, ⟨84, 90, true⟩, ⟨75, 84, false⟩] := by decide

/-- V-B8: green first, then red, then blue. -/
theorem test_sendLed_order :
    (recordAfter (.sendLed 0x12 0x34 0x56) (fromRecord false 0 none)).map
      (fun E => (E.t, decodeBytes configTC (traceAt E.trace) 0 3)) = some (288, some [0x34, 0x12, 0x56]) := by decide +kernel

/-- V-B10: `SEND_LED 0x00, 0xFF, 0x00` is high 48 cycles in its first byte (V-B4), then twice 24 (V-B3). -/
theorem test_sendLed_green :
    (recordAfter (.sendLed 0x00 0xFF 0x00) (fromRecord false 0 none)).map
      (fun E => ((highCycles 96 E).length, (highCycles 288 E).length)) = some (48, 96) := by decide +kernel

/-- V-F1. -/
theorem test_latch :
    recordAfter .latch (fromRecord false 1154 none) = some ⟨false, 11154, [⟨1154, 11154, false⟩], none⟩ := by decide

/-- V-F2. -/
theorem test_latch_from_high :
    recordAfter .latch (fromRecord true 0 none) = some ⟨false, 10000, [⟨0, 10000, false⟩], none⟩ := by decide

/-- V-F3: the last symbol and the latch are one low stretch, of 9 and 10000 cycles. -/
theorem test_transmitFrame :
    (recordAfter .transmitFrame (fromRecord false 0 (some (List.replicate 4 ⟨0, 0, 0⟩)))).map
      (fun E => (E.t, E.trace.length, E.trace.take 2)) =
      some (11152, 192, [⟨1143, 11152, false⟩, ⟨1140, 1143, true⟩]) := by decide +kernel

/-- V-F5. -/
theorem test_transmitFrame_none :
    faultOf (State.reset.withFetchWord 32 0x70000000) = some .frameReadNone := by decide

/-! ### Frames (V-L1, FrameBit) -/

theorem test_wireBytes : wireBytes colors1 = [0, 0xFF, 0, 0xFF, 0, 0, 0, 0, 0xFF, 0xFF, 0xFF, 0] := by decide

theorem test_unpack : sampledFrame configTC ⟨false, true, colors1Port⟩ = colors1 := by decide

theorem test_frameBit :
    frameBit (some colors1) 0 = some false ∧ frameBit (some colors1) 8 = some true ∧
    frameBit (some colors1) 23 = some false ∧ frameBit (some colors1) 24 = some true ∧
    frameBit (some colors1) 95 = some false := by decide

/-- The corner cases of the decoder (R126): a high time that is no bit's, and a window that is all low. -/
theorem test_decoder_invalid :
    decodeSymbol configTC (traceAt [⟨4, 12, false⟩, ⟨0, 4, true⟩]) 0 = none ∧
    decodeSymbol configTC (traceAt [⟨0, 12, false⟩]) 0 = none ∧
    decodeSymbol configTC (traceAt [⟨11, 12, true⟩, ⟨6, 11, false⟩, ⟨0, 6, true⟩]) 0 = none := by decide

/-! ### The clock edge: rows of the cycle table of `colors1` -/

/-- Cycles 1 to 2: acceptance. -/
theorem test_edge_accept :
    (stateAfter (blockState Block.reset false true) 1).map State.blk = some (txBlock 0 0 7 .hi 3 true) := by decide

/-- Cycles 4 to 5: the end of the high phase. -/
theorem test_edge_high_end :
    (stateAfter (blockState (txBlock 0 0 7 .hi 1 true) false false) 1).map State.blk =
      some (txBlock 0 0 7 .lo 9 false) := by decide

/-- Cycles 97 to 98: from the green byte to the red byte, whose first bit is 1. -/
theorem test_edge_next_byte :
    (stateAfter (blockState (txBlock 0 0 0 .lo 1 false) false false) 1).map State.blk =
      some (txBlock 0 1 7 .hi 6 true) := by decide

/-- Cycles 1153 to 1154: from the last bit to the latch. -/
theorem test_edge_latch :
    (stateAfter (blockState (txBlock 3 2 0 .lo 1 false) false false) 1).map State.blk =
      some (latchBlock 10000) := by decide

/-- V-H6: a start in the last latch cycle is not accepted. -/
theorem test_edge_latch_end :
    (stateAfter (blockState (latchBlock 1) false true) 1).map State.blk = some Block.reset := by decide

/-- V-H1: a start in cycle 50 is ignored. -/
theorem test_edge_start_ignored :
    (stateAfter (blockState (txBlock 0 0 3 .hi 3 true) false true) 1).map State.blk =
      some (txBlock 0 0 3 .hi 2 true) := by decide

/-- V-H2 and V-H3: reset wins over a start, and ends a frame. -/
theorem test_edge_reset :
    (stateAfter (blockState Block.reset true true) 1).map State.blk = some Block.reset ∧
    (stateAfter (blockState (txBlock 0 1 7 .hi 4 true) true false) 1).map State.blk = some Block.reset ∧
    doutAt (blockState (txBlock 0 1 7 .hi 4 true) true false) 0 = some true := by decide

/-! ### Refusals: V-C1 to V-C8, and a reserved word behind a good one (R204) -/

theorem test_refused_configurations :
    cfgRefusal { configTC with t1l := 5 } = some .bitPeriodUnequal ∧
    cfgRefusal { configTC with t0h := 6, t0l := 6 } = some .symbolsIndistinct ∧
    cfgRefusal { configTC with t0h := 12, t0l := 0 } = some .zeroDuration ∧
    cfgRefusal { configTC with nLeds := 0 } = some .noLeds ∧
    cfgRefusal { configTC with tResetMin := 20000 } = some .latchTooShort ∧
    cfgRefusal { configTC with latchMs := 26844 } = some .countTooWide ∧
    cfgRefusal { configTC with fClk := 10000500 } = some .clockNotMsMultiple ∧
    cfgRefusal configTC = none := by decide

theorem test_refused_block :
    refusalOf (blockState { Block.reset with pin := true } false false) = some .illFormedState := by decide

theorem test_refused_word :
    refusalOf { State.reset with ops := [0x10000001#32, 0x60000001#32] } = some .reservedBits ∧
    refusalOf { State.reset with ops := [0x10000001#32, 0x00000000#32] } = some .reservedOpcode := by decide

/-! ### Fetch -/

/-- `step` runs exactly the word placed. -/
theorem test_withFetchWord :
    (stateAfter (State.reset.withFetchWord 32 0x10000001) 1).map (fun t => (t.record.pin, t.ops, t.blk)) =
      some (true, [], Block.reset) := by decide

/-- Reset with nothing placed: a quiet edge, which leaves the machine as it is (R168). -/
theorem test_reset_step : stateAfter State.reset 1 = some State.reset := by decide

/-! ### Witnesses: concrete values that meet the hypotheses of each statement, clause by clause -/

/-- A small configuration that is admitted: one LED, a bit of 3 cycles, a latch of 1 cycle. -/
def tiny : Cfg :=
  { configTC with nLeds := 1, t0h := 1, t0l := 2, t1h := 2, t1l := 1, fClk := 1000, latchMs := 1, tResetMin := 1 }

/-- A frame of one LED. -/
def tinyFrame : Frame := [⟨0x80, 0x00, 0x01⟩]

/-- The small machine with a record that holds a frame. -/
def tinyState : State :=
  { cfg := tiny, blk := Block.reset, record := { pin := true, t := 7, trace := [], fb := some tinyFrame }, ops := [],
    host := [] }

/-- The small machine with the block in the given state and the given inputs to come. -/
def tinyBlock (σ : Block) (host : List Inputs) : State := { tinyState with blk := σ, host := host }

/-- The small machine's block in `TX`. -/
def tinyTx (ch : Fin 4) (bit : Fin 8) (phase : Phase) (cnt : Nat) (pin : Level) : Block :=
  { fsm := .tx, led := 0, ch := ch, bit := bit, phase := phase, cnt := cnt, fb := some tinyFrame, pin := pin }

/-- The small machine's block in `LATCH`. -/
def tinyLatch : Block :=
  { fsm := .latch, led := 0, ch := 2, bit := 0, phase := .lo, cnt := 1, fb := some tinyFrame, pin := false }

/-- A start in this cycle, with the port at `fd`. -/
def startWith (fd : Nat) : Inputs := ⟨false, true, fd⟩

theorem witness_EncodeAndDecodeAreInverse :
    wellFormed (.delayCycles (2 ^ 28 - 1)) = true ∧ decode 0x2FFFFFFF#32 = .op (.delayCycles (2 ^ 28 - 1)) ∧
    2 ^ 28 ≤ 2 ^ 28 ∧ Admitted tiny ∧
    expansion tiny tinyFrame .latch = some [.pinWrite false, .delayCycles 1] ∧
    Instr.delayCycles 1 ∈ [Instr.pinWrite false, Instr.delayCycles 1] := by decide

theorem witness_AssemblerChecksOperands :
    operationOf .sendByte [255] = some (.sendByte 255) ∧ operationOf .latch [] = some .latch := by decide

theorem witness_PinWriteSetsLevel : 1 ≤ 1 := by decide

theorem witness_DelayHoldsLevel : 2 ^ 28 - 1 < 2 ^ 28 ∧ Admitted tiny ∧ 1 ∈ [tiny.t0h, tiny.t0l, tiny.t1h, tiny.t1l, tLatch tiny] := by
  decide

theorem witness_OnlyLastPinWriteShows :
    ∀ z ∈ [Instr.delayCycles 0, Instr.delayCycles 0], z = .delayCycles 0 := by decide

theorem witness_SendBitIsOneSymbol : Admitted tinyState.cfg := by decide

theorem witness_SendByteIsEightSymbols : Admitted tinyState.cfg ∧ 7 < 8 ∧ 2 < tBit tinyState.cfg := by decide

theorem witness_SendLedSendsGreenRedBlue : Admitted tinyState.cfg ∧ 23 < 24 ∧ 2 < tBit tinyState.cfg := by decide

theorem witness_LatchHoldsLow : Admitted tiny := by decide

theorem witness_TransmitFrameSendsFrame :
    Admitted tinyState.cfg ∧ tinyState.record.fb = some tinyFrame ∧ tinyFrame.length = tinyState.cfg.nLeds ∧
    23 < 24 * tinyState.cfg.nLeds ∧ 2 < tBit tinyState.cfg ∧ 0 < tLatch tinyState.cfg ∧
    State.reset.record.fb = none := by decide

theorem witness_CompositesMeanTheirExpansion :
    (tinyState.record.fb = some tinyFrame ∧ tinyFrame.length = tinyState.cfg.nLeds) ∧
    expansion tinyState.cfg tinyFrame .transmitFrame = some [.sendLed 0x80 0x00 0x01, .latch] := by decide

theorem witness_DurationsIgnoreData :
    Admitted tinyState.cfg ∧ (recordAfter (.sendBit true) tinyState).isSome = true ∧
    (recordAfter (.sendByte 1) tinyState).isSome = true ∧ (recordAfter (.sendLed 1 2 3) tinyState).isSome = true ∧
    (recordAfter .transmitFrame tinyState).isSome = true := by decide

theorem witness_OperationsLeaveTheRest :
    (recordAfter .transmitFrame tinyState).map (fun E => decide (E.t ≤ 80 ∧ 6 < tinyState.record.t)) = some true := by
  decide

theorem witness_TraceHasNoGaps :
    Admitted tinyState.cfg ∧
    (recordAfterAll [.sendBit true, .latch] tinyState).map (fun E => decide (7 ≤ 10 ∧ 10 < E.t ∧ E.t ≤ 11)) =
      some true ∧
    Admitted tiny ∧ tinyFrame.length = tiny.nLeds ∧
    expansion tiny tinyFrame .transmitFrame = some [.sendLed 0x80 0x00 0x01, .latch] := by decide

theorem witness_OperationsRunInOrder :
    (recordAfterAll [.sendBit true] tinyState).isSome = true ∧
    (recordAfterAll ([.sendBit true] ++ [.latch]) tinyState).isSome = true ∧
    (recordAfter (.sendBit true) tinyState).isSome = true ∧
    exec .transmitFrame State.reset = .fault .frameReadNone ∧
    exec .transmitFrame { tinyState with cfg := configTC } = .refused .illFormedState :=
  ⟨by decide, by decide, by decide, rfl, rfl⟩

theorem witness_BytesDecodeBack : Admitted tinyState.cfg := by decide

theorem witness_FramesDecodeToWireBytes :
    Admitted tinyState.cfg ∧ tinyState.record.fb = some tinyFrame ∧ tinyFrame.length = tinyState.cfg.nLeds := by
  decide

theorem witness_SymbolsAreDistinct : Admitted tiny := by decide

theorem witness_WireBytesInOrder : 0 < tinyFrame.length ∧ (2 : Fin 4).val ≤ 2 := by decide

theorem witness_FrameBitsInWireOrder :
    23 < 24 * tinyFrame.length ∧ (2 : Fin 4).val ≤ 2 ∧ Admitted tinyState.cfg ∧
    frameBit (some tinyFrame) 23 = some true ∧ 2 < tBit tinyState.cfg := by decide

theorem witness_UnpackReadsPort : 0 < 1 ∧ 7 < 8 := by decide

theorem witness_StepRunsPendingOperation :
    Admitted tiny ∧ ({ tinyState with ops := [0x60000000#32, 0x30000001#32] } : State).ops =
      0x60000000#32 :: [0x30000001#32] ∧ decode 0x60000000#32 = .op .latch ∧
    ∀ w ∈ [0x30000001#32], ∃ j, decode w = .op j :=
  ⟨by decide, rfl, by decide, fun w h => ⟨.sendBit true, by rw [List.mem_singleton.1 h]; decide⟩⟩

theorem witness_RefusedWordRefusesRun :
    Admitted tiny ∧ ({ tinyState with ops := [0x60000000#32, 0x80000000#32] } : State).ops =
      [0x60000000#32] ++ 0x80000000#32 :: [] ∧ (∀ w ∈ [0x60000000#32], ∃ j, decode w = .op j) ∧
    decode 0x80000000#32 = .reservedOpcode ∧ decode 0x60000001#32 = .reservedBits :=
  ⟨by decide, rfl, fun w h => ⟨.latch, by rw [List.mem_singleton.1 h]; decide⟩, by decide, by decide⟩

theorem witness_PendingProgramRunsInOrder :
    Admitted tiny ∧ [Instr.latch, .sendBit true].map encode = [0x60000000#32, 0x30000001#32].map some ∧
    (recordAfterAll [.latch, .sendBit true] tinyState).isSome = true := by decide

theorem witness_StepWithoutOperationsIsEdge :
    Admitted tinyState.cfg ∧ tinyState.ops = [] ∧ blockWf tinyState.cfg tinyState.blk = true ∧
    edge tinyState.cfg tinyState.blk (inputsNow tinyState) = .next Block.reset ∧
    (inputsNow (tinyBlock (tinyTx 3 7 .hi 0 false) [⟨true, false, 0⟩])).rst = true :=
  ⟨by decide, rfl, by decide, rfl, by decide⟩

theorem witness_StepsLeaveTheRest :
    (stateAfter tinyState 1).isSome = true ∧ tinyState.ops = [] ∧
    (stateAfter (tinyState.withFetchWord 32 0x60000000) 1).isSome = true ∧
    (tinyState.withFetchWord 32 0x60000000).ops = 0x60000000#32 :: [] := by decide

theorem witness_ConfigurationConstraints :
    cfgRefusal { tiny with nLeds := 0 } = some .noLeds ∧ cfgRefusal { tiny with t1l := 2 } = some .bitPeriodUnequal ∧
    cfgRefusal { tiny with tResetMin := 0 } = some .zeroDuration ∧
    cfgRefusal { tiny with latchMs := 2 ^ 28 } = some .countTooWide ∧
    cfgRefusal { tiny with t1h := 1, t1l := 2 } = some .symbolsIndistinct ∧
    cfgRefusal { tiny with tResetMin := 2 } = some .latchTooShort ∧
    cfgRefusal { tiny with fClk := 1001 } = some .clockNotMsMultiple := by decide

theorem witness_IllFormedStateIsRefused :
    Admitted tiny ∧ (inputsNow (tinyBlock (tinyTx 3 7 .hi 1 true) [])).rst = false ∧
    blockWf tiny (tinyTx 3 7 .hi 1 true) = false ∧ tinyState.record.fb = some tinyFrame ∧
    tinyFrame.length ≠ configTC.nLeds := by decide

theorem witness_FaultsOnlyWithoutFrame :
    faultOf (State.reset.withFetchWord 32 0x70000000) = some .frameReadNone ∧ Admitted State.reset.cfg ∧
    (State.reset.withFetchWord 32 0x70000000).ops = 0x70000000#32 :: [] ∧
    decode 0x70000000#32 = .op .transmitFrame ∧ State.reset.record.fb = none := by decide

theorem witness_ResetFromAnyState :
    Admitted tiny ∧ inputsNow (tinyBlock (tinyTx 3 7 .hi 0 false) [⟨true, true, 5⟩]) = ⟨true, true, 5⟩ := by decide

theorem witness_ResetHolds :
    Admitted tiny ∧ ∀ k, k < 2 → (inputAt (tinyBlock tinyLatch [⟨true, true, 0⟩, ⟨true, false, 0⟩]) k).rst = true := by
  decide

theorem witness_WaitAfterResetIsLow :
    Admitted tiny ∧ WaitsAfterReset (tinyBlock (tinyTx 0 7 .hi 1 true) [⟨true, false, 0⟩, ⟨false, false, 0⟩]) ∧
    1 ≤ tiny.tResetMin := ⟨by decide, ⟨by decide, fun k h1 h2 => by
      have h : k = 1 := by have : k < 2 := h2; omega
      subst h; decide⟩, by decide⟩

theorem witness_SimultaneousEvents :
    ReadyForEdge (tinyBlock tinyLatch [⟨true, true, 0⟩]) ∧
    inputsNow (tinyBlock tinyLatch [⟨true, true, 0⟩]) = ⟨true, true, 0⟩ ∧
    ReadyForEdge (tinyBlock tinyLatch [startWith 0]) ∧
    inputsNow (tinyBlock tinyLatch [startWith 0]) = ⟨false, true, 0⟩ ∧ tinyLatch.fsm = .latch ∧
    tinyLatch.cnt = 1 := by decide

theorem witness_IdleEdge :
    ReadyForEdge (tinyBlock Block.reset [startWith 1]) ∧ Block.reset.fsm = .idle ∧
    (inputsNow (tinyBlock Block.reset [startWith 1])).rst = false ∧
    (inputsNow (tinyBlock Block.reset [startWith 1])).start = true ∧ ReadyForEdge (tinyBlock Block.reset []) ∧
    (inputsNow (tinyBlock Block.reset [])).rst = false ∧ (inputsNow (tinyBlock Block.reset [])).start = false := by
  decide

/-- Both clauses: the symbol of the bit 1 (red, bit 7) has a high phase of 2 cycles. -/
theorem witness_HighPhaseEdge :
    ReadyForEdge (tinyBlock (tinyTx 1 7 .hi 2 true) []) ∧ ReadyForEdge (tinyBlock (tinyTx 1 7 .hi 1 true) []) ∧
    (inputsNow (tinyBlock (tinyTx 1 7 .hi 1 true) [])).rst = false := by decide

/-- The three clauses: a bit 0 (green, bit 7) in its first low cycle and in its last, and the last bit. -/
theorem witness_LowPhaseEdge :
    ReadyForEdge (tinyBlock (tinyTx 0 7 .lo 2 false) []) ∧ ReadyForEdge (tinyBlock (tinyTx 2 0 .lo 1 false) []) ∧
    isLast tiny (tinyTx 2 0 .lo 1 false) = true ∧ ReadyForEdge (tinyBlock (tinyTx 0 0 .lo 1 false) []) ∧
    isLast tiny (tinyTx 0 0 .lo 1 false) = false ∧ nextPos 0 0 0 = (0, 1, 7) ∧
    (inputsNow (tinyBlock (tinyTx 0 0 .lo 1 false) [])).rst = false := by decide

theorem witness_LatchEdge :
    ReadyForEdge { (tinyBlock { tinyLatch with cnt := 2 } []) with cfg := { tiny with latchMs := 2 } } ∧
    ReadyForEdge (tinyBlock tinyLatch []) ∧ (inputsNow (tinyBlock tinyLatch [])).rst = false := by decide

theorem witness_EdgeIsTotal : ReadyForEdge (tinyBlock (tinyTx 2 0 .lo 1 false) [startWith 0]) := by decide

theorem witness_NextPositionAdvances :
    (7 : Fin 8).val = (6 : Fin 8).val + 1 ∧ (2 : Fin 4).val = (1 : Fin 4).val + 1 ∧ (2 : Fin 4).val ≤ 2 ∧
    1 ≤ tiny.nLeds ∧ (tinyTx 2 0 .lo 1 false).led < tiny.nLeds ∧ (tinyTx 2 0 .lo 1 false).ch.val ≤ 2 := by decide

theorem witness_PositionOnlyAdvances :
    ReadyForEdge (tinyBlock (tinyTx 0 0 .lo 1 false) []) ∧
    (inputsNow (tinyBlock (tinyTx 0 0 .lo 1 false) [])).rst = false ∧
    (stateAfter (tinyBlock (tinyTx 0 0 .lo 1 false) []) 1).map (fun t => t.blk.fsm) = some .tx := by decide

/-- Each of the transitions that need a cause. -/
theorem witness_SourceTransitionsOnly :
    (ReadyForEdge (tinyBlock Block.reset [startWith 1]) ∧
      (stateAfter (tinyBlock Block.reset [startWith 1]) 1).map (fun t => t.blk.fsm) = some .tx) ∧
    (ReadyForEdge (tinyBlock (tinyTx 2 0 .lo 1 false) []) ∧
      (stateAfter (tinyBlock (tinyTx 2 0 .lo 1 false) []) 1).map (fun t => t.blk.fsm) = some .latch) ∧
    (ReadyForEdge (tinyBlock tinyLatch []) ∧
      (stateAfter (tinyBlock tinyLatch []) 1).map (fun t => t.blk.fsm) = some .idle) := by decide

theorem witness_StartWhileBusyIsIgnored :
    ReadyForEdge (tinyBlock tinyLatch []) ∧ busy tinyLatch = true := by decide

theorem witness_FrameDataOnlyMattersAtAcceptance :
    ReadyForEdge (tinyBlock tinyLatch []) ∧ (stateAfter (tinyBlock tinyLatch []) 1).isSome = true ∧
    accepts tinyLatch (inputsNow (tinyBlock tinyLatch [])) = false ∧ accepts tinyLatch (startWith 3) = false := by
  decide

/-- Two hosts that agree on `rst` and on nothing else, over the last low cycle and the latch. -/
theorem witness_BusyBlockSeesOnlyReset :
    ReadyForEdge (tinyBlock (tinyTx 2 0 .lo 1 false) [startWith 1, startWith 2]) ∧
    (∀ k, k < 2 → (inputAt (tinyBlock (tinyTx 2 0 .lo 1 false) [startWith 1, startWith 2]) k).rst =
      (([] : List Inputs).getD k quietInputs).rst) ∧
    ∀ k, k < 2 → busyAt (tinyBlock (tinyTx 2 0 .lo 1 false) [startWith 1, startWith 2]) k = some true := by decide

theorem witness_CounterStaysInWidth :
    ReadyForEdge (tinyBlock (tinyTx 2 0 .lo 1 false) []) ∧
    (stateAfter (tinyBlock (tinyTx 2 0 .lo 1 false) []) 1).isSome = true := by decide

/-- The hypotheses of a whole frame: a start now and no reset through the frame. -/
theorem witness_MachineAgreesWithOperations :
    Admitted tiny ∧ (inputAt (tinyBlock Block.reset [startWith 0x800001]) 0).start = true ∧
    NoReset (tinyBlock Block.reset [startWith 0x800001]) (dFrame tiny + 1) ∧ 72 < dFrame tiny := by decide +kernel

/-- The last bit, its last cycle, the latch's last cycle, and a second start in the first idle cycle. -/
theorem witness_FrameTimeline :
    Admitted tiny ∧ dFrame tiny = 73 ∧ 23 < 24 * tiny.nLeds ∧ 2 < tBit tiny ∧ 0 < tLatch tiny ∧
    NoReset (tinyBlock Block.reset (List.replicate 75 (startWith 1))) (dFrame tiny + 1) ∧
    (inputAt (tinyBlock Block.reset (List.replicate 75 (startWith 1))) 0).start = true ∧
    (inputAt (tinyBlock Block.reset (List.replicate 75 (startWith 1))) (1 + dFrame tiny)).rst = false ∧
    (inputAt (tinyBlock Block.reset (List.replicate 75 (startWith 1))) (1 + dFrame tiny)).start = true := by
  decide +kernel

theorem witness_SameFrameSameWaveform :
    Admitted tiny ∧ portValue tiny (startWith 1) = portValue tiny (startWith (2 ^ 24 + 1)) ∧
    NoReset (tinyBlock Block.reset [startWith 1]) (dFrame tiny + 1) ∧
    NoReset (tinyBlock Block.reset [startWith (2 ^ 24 + 1), startWith 9]) (dFrame tiny + 1) := by decide +kernel

theorem witness_LowGapBetweenFrames :
    ReadyForEdge (tinyBlock (tinyTx 2 0 .hi 1 true) []) ∧ isLast tiny (tinyTx 2 0 .hi 1 true) = true ∧
    wireBit (some tinyFrame) 0 2 0 = some true ∧
    NoReset (tinyBlock (tinyTx 2 0 .hi 1 true) []) (tl tiny true + tLatch tiny + 1) ∧
    3 ≤ tl tiny true + tLatch tiny + 1 := by decide

theorem witness_IdleWaits : Admitted tiny ∧ Quiet (tinyBlock Block.reset []) 0 3 :=
  ⟨by decide, fun k _ h => by
    have : ∀ k, k < 3 → (inputAt (tinyBlock Block.reset []) k).rst = false ∧
      (inputAt (tinyBlock Block.reset []) k).start = false := by decide
    exact this k h⟩

theorem witness_HeldStartSendsFramesBackToBack :
    Admitted tiny ∧ NoReset (tinyBlock Block.reset (List.replicate 75 (startWith 1))) (dFrame tiny + 2) ∧
    ∀ k, k < dFrame tiny + 2 →
      (inputAt (tinyBlock Block.reset (List.replicate 75 (startWith 1))) k).start = true := by decide +kernel

theorem witness_StepKeepsRunInvariant :
    RunInv tinyState ∧ (stateAfter tinyState 1).isSome = true ∧
    (stateAfter (tinyState.withFetchWord 32 0x30000001) 1).isSome = true := by decide

/-- A run from ResetState for each of the three states of the block: after 0, 1 and 73 steps. -/
theorem witness_ReachableBlocksAreWellFormed :
    Admitted tiny ∧
    [0, 1, 73].map (fun k => (stateAfter (tinyBlock Block.reset [startWith 1]) k).map fun t => t.blk.fsm) =
      [some .idle, some .tx, some .latch] := by decide +kernel

end Sys2Proof.Tests
end

/-! PROOFS. The scope of the model (00_scope.md): what the seven operations leave alone (R18), that a step runs the
pending operation or is one edge of `clk` (R3, R87), and that a program of pending words runs as the sequence of its
operations (40_pulse_sequencer.md R100). -/

namespace Sys2Proof.Machine

/-! ### What an operation leaves of the trace -/

/-- `E'` is `E` moved forward in time, with no cycle written outside those passed over. Unlike `Continues` it says
nothing of the levels written, so it needs no admitted configuration. -/
def MovesForward (E E' : ExecRec) : Prop :=
  E.t ≤ E'.t ∧ ∀ k, k < E.t ∨ E'.t ≤ k → traceAt E'.trace k = traceAt E.trace k

theorem Continues.movesForward {E E' : ExecRec} {n : Nat} {f : Nat → Level} (h : Continues E E' n f) :
    MovesForward E E' :=
  ⟨h.1 ▸ Nat.le_add_right _ _, fun _ hk => h.outside hk⟩

theorem MovesForward.trans {E E' E'' : ExecRec} (h : MovesForward E E') (h' : MovesForward E' E'') :
    MovesForward E E'' := by
  obtain ⟨hle, hout⟩ := h
  obtain ⟨hle', hout'⟩ := h'
  exact ⟨hle.trans hle', fun k hk => by rw [hout' k (by omega), hout k (by omega)]⟩

theorem bytesOut_movesForward (c : Cfg) (vs : List Byte) (E : ExecRec) : MovesForward E (bytesOut c vs E) :=
  bytesOut_eq_symbols c vs E ▸ symbols_outside c _ E

theorem frameOut_movesForward (c : Cfg) (F : Frame) (E : ExecRec) : MovesForward E (frameOut c F E) := by
  rw [frameOut_eq_symbols]
  have hbits : MovesForward E (symbols c (wireBits F) E) := symbols_outside c _ E
  exact hbits.trans (latchHold_continues c _).movesForward

theorem exec_movesForward {i : Instr} {s t : State} (h : exec i s = .next t) :
    MovesForward s.record t.record := by
  cases i with
  | pinWrite l => cases h; exact (pinWrite_continues l s.record fun _ => l).movesForward
  | delayCycles n => cases h; exact (hold_continues n s.record).movesForward
  | sendBit b => cases h; exact (symbol_continues s.cfg b s.record).movesForward
  | sendByte v => cases h; exact symbols_outside s.cfg (bitsMsbFirst v) s.record
  | sendLed r g b => cases h; exact bytesOut_movesForward s.cfg (ledBytes ⟨r, g, b⟩) s.record
  | latch => cases h; exact (latchHold_continues s.cfg s.record).movesForward
  | transmitFrame =>
    simp only [exec, execTransmitFrame] at h
    split at h
    · cases h
    next F _ =>
    split at h
    · cases h; exact frameOut_movesForward s.cfg F s.record
    · cases h

/-- Settles O17: the fields by `exec_onlyLine`, the cycles by `exec_movesForward`. -/
theorem operationsLeaveTheRest : Obligations.OperationsLeaveTheRest := by
  intro i s t h
  obtain ⟨ht, hfb⟩ := exec_onlyLine h
  obtain ⟨hle, hout⟩ := exec_movesForward h
  refine ⟨?_, hle, hout⟩
  rw [ht]
  exact ⟨rfl, rfl, rfl, rfl, hfb⟩

/-! ### One step -/

/-- With operation words pending a step runs the first. -/
theorem step_op {s : State} {w : Word} {rest : List Word} {i : Instr} (hA : Admitted s.cfg)
    (ho : s.ops = w :: rest) (hd : decode w = .op i) (hr : ∀ w' ∈ rest, ∃ j, decode w' = .op j) :
    step s = exec i (withOps s rest) := by
  simp [step, hA, ho, fetch_cons hd hr]

/-- Settles O26. -/
theorem stepRunsPendingOperation : Obligations.StepRunsPendingOperation :=
  fun _ _ _ _ hA ho hd hr => step_op hA ho hd hr

/-- Settles O29. -/
theorem stepWithoutOperationsIsEdge : Obligations.StepWithoutOperationsIsEdge :=
  fun _ _ hA ho hw he => (step_edge hA ho).trans (clockEdge_of_edge hw he)

/-- Settles O30: by the two kinds of step, an edge (`clockEdge_next`) and an operation (`exec_onlyLine`). -/
theorem stepsLeaveTheRest : Obligations.StepsLeaveTheRest := by
  intro s t h
  obtain ⟨-, ⟨ho, he⟩ | ⟨w, rest, i, ho, -, hx⟩⟩ := step_cases h
  · obtain ⟨-, σ, -, rfl⟩ := clockEdge_next he
    exact ⟨rfl, fun _ => ⟨rfl, ho, rfl⟩, fun _ _ ho' => by simp [ho] at ho'⟩
  · obtain ⟨ht, hfb⟩ := exec_onlyLine hx
    rw [ht]
    refine ⟨rfl, fun ho' => by simp [ho] at ho', fun w' rest' ho' => ?_⟩
    obtain ⟨-, rfl⟩ := List.cons.inj (ho.symm.trans ho')
    exact ⟨rfl, rfl, rfl, hfb⟩

/-! ### Encoded programs -/

/-- The word of an operation decodes to it (30_encoding.md R85). -/
theorem decode_encode {i : Instr} {w : Word} (h : encode i = some w) : decode w = .op i := by
  cases i with
  | pinWrite l => cases h; cases l <;> rfl
  | delayCycles n =>
    have hop : opcodeOf w = 0x2#4 := Laws.OpcodeField.delayCycles n w h
    obtain ⟨hn, hw⟩ : n < 2 ^ 28 ∧ 0x20000000#32 ||| BitVec.ofNat 32 n = w := by simpa [encode] using h
    have hval : w.toNat = 0x20000000 + n := hw ▸ delayCycles_word_toNat hn
    simp [decode, hop, hval]
    omega
  | sendBit b => cases h; cases b <;> rfl
  | sendByte v =>
    have hop : opcodeOf w = 0x4#4 := Laws.OpcodeField.sendByte v w h
    have hval : w.toNat = 0x40000000 + v.toNat := Option.some.inj h ▸ sendByte_word_toNat v
    have hv := v.isLt
    simp [decode, hop, ifReservedZero_eq_op, extractLsb'_eq_iff, hval]
    omega
  | sendLed r g b =>
    have hop : opcodeOf w = 0x5#4 := Laws.OpcodeField.sendLed r g b w h
    have hval : w.toNat = 0x50000000 + r.toNat * 2 ^ 16 + g.toNat * 2 ^ 8 + b.toNat :=
      Option.some.inj h ▸ sendLed_word_toNat r g b
    have hr := r.isLt
    have hg := g.isLt
    have hb := b.isLt
    simp [decode, hop, ifReservedZero_eq_op, extractLsb'_eq_iff, hval]
    omega
  | latch => cases h; rfl
  | transmitFrame => cases h; rfl

/-- Every word of an encoded program is an operation. -/
theorem decode_of_mem_encoded {is : List Instr} {ws : List Word} (h : is.map encode = ws.map some) :
    ∀ w ∈ ws, ∃ j, decode w = .op j := by
  intro w hw
  have hmem : some w ∈ is.map encode := h ▸ List.mem_map_of_mem hw
  obtain ⟨i, -, hi⟩ := List.mem_map.1 hmem
  exact ⟨i, decode_encode hi⟩

/-- A sequence that answers a next state has run its first operation and then the rest (R100). -/
theorem execSeq_cons_next {i : Instr} {rest : List Instr} {s t : State}
    (h : execSeq (i :: rest) s = .next t) : ∃ u, exec i s = .next u ∧ execSeq rest u = .next t := by
  rw [execSeq] at h
  split at h
  · next u hu => exact ⟨u, hu, h⟩
  · cases h
  · cases h

/-- With the encoding of an operation and then operation words pending, a step is that operation on the record,
and the later words stay pending. -/
theorem step_encoded {s u : State} {w : Word} {rest : List Word} {i : Instr} (hA : Admitted s.cfg)
    (ho : s.ops = w :: rest) (hi : encode i = some w) (hr : ∀ w' ∈ rest, ∃ j, decode w' = .op j)
    (hx : exec i (withOps s []) = .next u) : step s = .next (withOps u rest) := by
  rw [step_op hA ho (decode_encode hi) hr]
  exact exec_withOps hx rest

/-- A program of encoded operations runs as their sequence, one step each. -/
theorem run_encoded {is : List Instr} {s t : State} (hA : Admitted s.cfg)
    (hops : is.map encode = s.ops.map some) (h : execSeq is (withOps s []) = .next t) :
    Host.Core.run Sys2Proof.core is.length s = .next t := by
  induction is generalizing s with
  | nil =>
    have ho : s.ops = [] := by simpa using hops.symm
    rw [← ho] at h
    exact h
  | cons i is ih =>
    obtain ⟨w, rest, ho, hi, hrest⟩ : ∃ w rest, s.ops = w :: rest ∧ encode i = some w ∧
        is.map encode = rest.map some := by
      cases ho : s.ops with
      | nil => simp [ho] at hops
      | cons w rest => exact ⟨w, rest, rfl, by simpa [ho] using hops⟩
    obtain ⟨u, hx, hu⟩ := execSeq_cons_next h
    have hstep := step_encoded hA ho hi (decode_of_mem_encoded hrest) hx
    have hrec := (exec_onlyLine hx).1
    have hcfg : u.cfg = s.cfg := by rw [hrec]; rfl
    have hnil : withOps u [] = u := by rw [hrec]; rfl
    rw [List.length_cons, run_succ_of_step hstep]
    exact ih (s := withOps u rest) (hcfg ▸ hA) hrest (by rw [withOps_withOps, hnil]; exact hu)

/-- Settles O28, by induction over the program (`run_encoded`). -/
theorem pendingProgramRunsInOrder : Obligations.PendingProgramRunsInOrder :=
  fun _ _ _ hA hops h => run_encoded hA hops h

end Sys2Proof.Machine

/-! PROOFS. The state of a run (10_state.md): the values after reset (R29), the invariants of R38 kept by every step and
so true of every state a run reaches, the width of the counter (R26) and the position in the frame (R36). -/

namespace Sys2Proof.Machine

/-! ### What every step keeps -/

/-- An edge that answers a next state answers one that satisfies R38. -/
theorem edge_next_blockWf {c : Cfg} {σ σ' : Block} {inp : Inputs} (hA : Admitted c)
    (hw : inp.rst = true ∨ blockWf c σ = true) (he : edge c σ inp = .next σ') : blockWf c σ' = true := by
  obtain ⟨τ, hτ, hwf⟩ := edge_keeps_blockWf hA hw
  obtain rfl := Host.Outcome.next.inj (he.symm.trans hτ)
  exact hwf

section OneStep
variable {s t : State} (h : step s = .next t)
include h

/-- A step that answers a next state is an edge, on a block that satisfies R38 or is reset, or one operation. -/
theorem step_edge_or_exec :
    Admitted s.cfg ∧
      ((∃ σ, ((inputsNow s).rst = true ∨ blockWf s.cfg s.blk = true) ∧
          edge s.cfg s.blk (inputsNow s) = .next σ ∧ t = afterEdge s σ) ∨
       ∃ i rest, exec i (withOps s rest) = .next t) := by
  obtain ⟨hA, ⟨-, hedge⟩ | ⟨_, rest, i, -, -, hexec⟩⟩ := step_cases h
  · obtain ⟨hw, σ, he, ht⟩ := clockEdge_next hedge
    exact ⟨hA, .inl ⟨σ, hw, he, ht⟩⟩
  · exact ⟨hA, .inr ⟨i, rest, hexec⟩⟩

theorem step_cfg : t.cfg = s.cfg := (stepsLeaveTheRest s t h).1

/-- Every step keeps R38: an edge by `edge_next_blockWf`, an operation because it leaves the block alone. -/
theorem step_keeps_blockWf (hw : blockWf s.cfg s.blk = true) : blockWf t.cfg t.blk = true := by
  obtain ⟨hA, ⟨σ, hw', he, rfl⟩ | ⟨i, rest, hexec⟩⟩ := step_edge_or_exec h
  · exact edge_next_blockWf hA hw' he
  · rw [(exec_onlyLine hexec).1]
    exact hw

theorem step_record_fb : t.record.fb = s.record.fb := by
  obtain ⟨-, ⟨σ, -, -, rfl⟩ | ⟨i, rest, hexec⟩⟩ := step_edge_or_exec h
  · rfl
  · exact (exec_onlyLine hexec).2

theorem step_keeps_traceWf (hw : traceWf s.record.trace = true) : traceWf t.record.trace = true := by
  obtain ⟨-, ⟨σ, -, -, rfl⟩ | ⟨i, rest, hexec⟩⟩ := step_edge_or_exec h
  · exact hw
  · exact exec_keeps_traceWf hexec hw

end OneStep

/-- Settles O57, part by part of the invariant. -/
theorem stepKeepsRunInvariant : Obligations.StepKeepsRunInvariant := by
  intro s t ⟨hA, hblk, htrace, hfb⟩ h
  refine ⟨?_, step_keeps_blockWf h hblk, step_keeps_traceWf h htrace, ?_⟩
  · rw [step_cfg h]
    exact hA
  · rw [step_record_fb h, step_cfg h]
    exact hfb

/-! ### Reset -/

/-- Settles O34. -/
theorem resetStateValues : Obligations.ResetStateValues := ⟨rfl, rfl, rfl⟩

theorem configTC_admitted : Admitted configTC := by decide

/-- Settles O58. -/
theorem runInvariantAtReset : Obligations.RunInvariantAtReset :=
  ⟨configTC_admitted, blockWf_reset configTC, rfl, .inl rfl⟩

/-! ### Runs -/

/-- A run of `k + 1` steps that answers a next state is a step and a run of `k`. -/
theorem run_succ_next {k : Nat} {s t : State} (h : Host.Core.run Sys2Proof.core (k + 1) s = .next t) :
    ∃ u, step s = .next u ∧ Host.Core.run Sys2Proof.core k u = .next t := by
  cases hu : step s with
  | next u => exact ⟨u, rfl, run_succ_of_step hu k ▸ h⟩
  | fault r =>
    have hstop : Sys2Proof.core.step s = .fault r := hu
    simp [Host.Core.run, hstop] at h
  | refused r =>
    have hstop : Sys2Proof.core.step s = .refused r := hu
    simp [Host.Core.run, hstop] at h

/-- What every step keeps, every run keeps. -/
theorem run_keeps {P : State → Prop} (hP : ∀ s t, P s → step s = .next t → P t) {k : Nat} {s t : State}
    (hs : P s) (h : Host.Core.run Sys2Proof.core k s = .next t) : P t := by
  induction k generalizing s with
  | zero =>
    obtain rfl := Host.Outcome.next.inj h
    exact hs
  | succ k ih =>
    obtain ⟨u, hu, hrun⟩ := run_succ_next h
    exact ih (hP s u hs hu) hrun

/-- Settles O59: R38 holds at the start (`blockWf_reset`) and a run keeps it; the three clauses are the facts of a
well-formed block in each of its states. -/
theorem reachableBlocksAreWellFormed : Obligations.ReachableBlocksAreWellFormed := by
  intro k s t _ hreset hrun
  have hstart : blockWf s.cfg s.blk = true := hreset ▸ blockWf_reset s.cfg
  have hw : blockWf t.cfg t.blk = true :=
    run_keeps (P := fun u => blockWf u.cfg u.blk = true) (fun _ _ hu h => step_keeps_blockWf h hu) hstart hrun
  refine ⟨fun hf => ?_, fun hf => ?_, fun hf => ?_⟩
  · rw [blockWf_idle hw hf]
    exact ⟨rfl, rfl, rfl, rfl, rfl, rfl, rfl⟩
  · obtain ⟨F, b, hS⟩ := blockWf_tx hw hf
    exact ⟨F, b, hS.frame, hS.length, hS.led, hS.ch, hS.cnt, hS.bit, hS.high, hS.low⟩
  · have hL := blockWf_latch hw hf
    obtain ⟨F, hF, -⟩ := holdsFrame_iff.1 hL.frame
    obtain ⟨hled, hch, hbit⟩ := isLast_iff.1 hL.last
    exact ⟨hL.pin, hL.cnt, hL.cnt_le, by simp [hF], hled, hch, hbit, hL.phase⟩

/-! ### The counter -/

theorem Admitted.th_fits {c : Cfg} (h : Admitted c) (b : Level) : th c b ≤ maxCount := by
  cases b
  · exact h.constraints.t0h_fits
  · exact h.constraints.t1h_fits

theorem Admitted.tl_fits {c : Cfg} (h : Admitted c) (b : Level) : tl c b ≤ maxCount := by
  cases b
  · exact h.constraints.t0l_fits
  · exact h.constraints.t1l_fits

/-- While a frame is sent the counter fits in its width (R15, R26). -/
theorem Sending.cnt_fits {c : Cfg} {σ : Block} {F : Frame} {b : Level} (hA : Admitted c) (h : Sending c σ F b) :
    σ.cnt ≤ maxCount := by
  cases hφ : σ.phase
  case hi => exact (h.high hφ).2.trans (hA.th_fits b)
  case lo => exact (h.low hφ).2.trans (hA.tl_fits b)

/-- The counter of a block that satisfies R38 and is not idle (R26). -/
theorem blockWf_cnt {c : Cfg} {σ : Block} (hA : Admitted c) (hw : blockWf c σ = true) (hf : σ.fsm ≠ .idle) :
    1 ≤ σ.cnt ∧ σ.cnt ≤ maxCount := by
  cases hs : σ.fsm
  case idle => exact absurd hs hf
  case tx =>
    obtain ⟨F, b, hS⟩ := blockWf_tx hw hs
    exact ⟨hS.cnt, hS.cnt_fits hA⟩
  case latch =>
    have hL := blockWf_latch hw hs
    exact ⟨hL.cnt, hL.cnt_le.trans hA.constraints.tLatch_fits⟩

/-- Settles O50: the state after the step satisfies R38. -/
theorem counterStaysInWidth : Obligations.CounterStaysInWidth := by
  intro s t ⟨hA, _, hblk⟩ h
  have hw := step_keeps_blockWf h hblk
  exact ⟨blockWf_cnt (step_cfg h ▸ hA) hw, fun hf => by rw [blockWf_idle hw hf]; rfl⟩

/-! ### The position in the frame -/

/-- The next position has the next linear index (R158). -/
theorem linearIndex_nextPos (l : Nat) {ch : Fin 4} (k : Fin 8) (hc : ch.val ≤ 2) :
    linearIndex (nextPos l ch k).1 (nextPos l ch k).2.1 (nextPos l ch k).2.2 = linearIndex l ch k + 1 := by
  unfold nextPos linearIndex
  split
  · simp only; omega
  · split
    · simp; omega
    · simp; omega

/-- A position inside the frame has its linear index below the number of the frame's bits (R36). -/
theorem linearIndex_lt {n l : Nat} {ch : Fin 4} (k : Fin 8) (hl : l < n) (hc : ch.val ≤ 2) :
    linearIndex l ch k < 24 * n := by
  unfold linearIndex
  omega

/-- The position of a symbol that has begun. -/
theorem beginSymbol_position {c : Cfg} {fb : Option Frame} {l : Nat} {ch : Fin 4} {k : Fin 8} {σ : Block}
    (h : beginSymbol c fb l ch k = .next σ) : σ.led = l ∧ σ.ch = ch ∧ σ.bit = k := by
  obtain ⟨b, -, rfl⟩ := withBit_next h
  exact ⟨rfl, rfl, rfl⟩

/-- An edge from `TX` to `TX` without reset leaves the position, or ends a symbol and goes to the next position. -/
theorem edge_tx_position {c : Cfg} {σ σ' : Block} {inp : Inputs} (he : edge c σ inp = .next σ')
    (hr : inp.rst = false) (hf : σ.fsm = .tx) (hf' : σ'.fsm = .tx) :
    (σ'.led, σ'.ch, σ'.bit) = (σ.led, σ.ch, σ.bit) ∨
      σ.phase = .lo ∧ σ.cnt ≤ 1 ∧ (σ'.led, σ'.ch, σ'.bit) = nextPos σ.led σ.ch σ.bit := by
  obtain ⟨hr', -⟩ | ⟨-, ⟨hi, -⟩ | ⟨hi, -⟩ | ⟨-, -, rfl⟩ | ⟨-, -, -, b, -, rfl⟩ | ⟨-, -, -, -, rfl⟩ |
    ⟨-, hφ, hc, -, hnext⟩ | ⟨hl, -⟩⟩ := edge_cases he
  · simp [hr] at hr'
  · simp [hf] at hi
  · simp [hf] at hi
  · exact .inl rfl
  · exact .inl rfl
  · cases hf'
  · obtain ⟨hled, hch, hbit⟩ := beginSymbol_position hnext
    exact .inr ⟨hφ, hc, by rw [hled, hch, hbit]⟩
  · simp [hf] at hl

/-- Settles O45: the bound by R38 after the step, the advance by `edge_tx_position`. -/
theorem positionOnlyAdvances : Obligations.PositionOnlyAdvances := by
  intro s t hready hr hf h hf'
  obtain ⟨σ, he, hw, hstep⟩ := step_ready hready
  obtain rfl := Host.Outcome.next.inj (hstep.symm.trans h)
  obtain ⟨F, b, hS⟩ := blockWf_tx hready.2.2 hf
  obtain ⟨F', b', hS'⟩ := blockWf_tx hw hf'
  refine ⟨linearIndex_lt σ.bit hS'.led hS'.ch, ?_⟩
  rw [afterEdge_blk]
  obtain hsame | ⟨hφ, hc, hnext⟩ := edge_tx_position he hr hf hf'
  · simp only [Prod.mk.injEq] at hsame
    obtain ⟨hled, hch, hbit⟩ := hsame
    exact .inl (by rw [hled, hch, hbit])
  · refine .inr ⟨hφ, Nat.le_antisymm hc hS.cnt, ?_⟩
    rw [← linearIndex_nextPos s.blk.led s.blk.bit hS.ch, ← hnext]

end Sys2Proof.Machine

/-! PROOFS. The frame buffer (20_memory.md): the wire bytes of a frame in order (R56, R57), and that `frame_data` is
read in an accepting cycle only and the buffer written only there, on the entry to IDLE and at reset (R53). -/

namespace Sys2Proof.Machine

/-! ### The wire bytes -/

/-- Settles O23: the bytes by `wireBytes_getElem?`, an induction over the frame; the written-out list is the
definition unfolded. -/
theorem wireBytesInOrder : Obligations.WireBytesInOrder :=
  ⟨wireBytes_length, fun F _ _ hi hc => wireBytes_getElem? F hi hc, fun _ _ _ _ => rfl⟩

/-! ### The frame buffer -/

/-- A block that begins a symbol holds the buffer it reads. -/
theorem beginSymbol_fb {c : Cfg} {fb : Option Frame} {l : Nat} {ch : Fin 4} {k : Fin 8} {σ : Block}
    (h : beginSymbol c fb l ch k = .next σ) : σ.fb = fb := by
  obtain ⟨b, -, rfl⟩ := withBit_next h
  rfl

section NoStartAccepted
variable {c : Cfg} {σ : Block} {inp : Inputs} (hacc : accepts σ inp = false)
include hacc

/-- Without reset an idle block that accepts no start is asked for none (R153). -/
theorem start_false_of_not_accepts (hr : inp.rst = false) (hf : σ.fsm = .idle) : inp.start = false := by
  simpa [accepts, hr, hf] using hacc

/-- An edge that accepts no start keeps the frame buffer, or leads to `ResetState` (R53). -/
theorem edge_keeps_fb {σ' : Block} (he : edge c σ inp = .next σ') : σ'.fb = σ.fb ∨ σ' = Block.reset := by
  obtain ⟨-, rfl⟩ | ⟨hr, ⟨-, -, rfl⟩ | ⟨hidle, hs, -⟩ | ⟨-, -, rfl⟩ | ⟨-, -, -, b, -, rfl⟩ | ⟨-, -, -, -, rfl⟩ |
    ⟨-, -, -, -, hnext⟩ | ⟨-, -, rfl⟩⟩ := edge_cases he
  · exact .inr rfl
  · exact .inl rfl
  · simp [start_false_of_not_accepts hacc hr hidle] at hs
  · exact .inl rfl
  · exact .inl rfl
  · exact .inl rfl
  · exact .inl (beginSymbol_fb hnext)
  · exact .inr rfl

/-- An edge that accepts no start does not read `frame_data` (R53): an idle block is reset or stays as it is, and a
busy block reads `rst` only (`edge_congr`). -/
theorem edge_ignores_frameData (fd : Nat) : edge c σ { inp with frameData := fd } = edge c σ inp := by
  by_cases hf : σ.fsm = .idle
  · cases hr : inp.rst
    case true => simp [edge, hr]
    case false => simp [edge, hr, hf, stepIdle, start_false_of_not_accepts hacc hr hf]
  · exact edge_congr rfl hf

end NoStartAccepted

/-- The step of a ready block on given inputs. -/
theorem step_host_cons {s : State} {inp : Inputs} {σ : Block} (h : ReadyForEdge s)
    (he : edge s.cfg s.blk inp = .next σ) (rest : List Inputs) :
    step { s with host := inp :: rest } = .next { s with blk := σ, host := rest } :=
  step_of_edge (s := { s with host := inp :: rest }) h he

/-- Settles O48: the buffer by `edge_keeps_fb`, the independence by `edge_ignores_frameData`. -/
theorem frameDataOnlyMattersAtAcceptance : Obligations.FrameDataOnlyMattersAtAcceptance := by
  refine ⟨fun s t hready h hacc => ?_, fun s inp rest fd hready hacc => ?_⟩
  · obtain ⟨σ, he, -, hstep⟩ := step_ready hready
    obtain rfl := Host.Outcome.next.inj (hstep.symm.trans h)
    exact edge_keeps_fb hacc he
  · have ⟨hA, _, hwf⟩ := hready
    obtain ⟨σ, he, -⟩ := edge_keeps_blockWf hA (inp := inp) (.inr hwf)
    exact ⟨σ, step_host_cons hready he rest,
      step_host_cons hready ((edge_ignores_frameData hacc fd).trans he) rest⟩

end Sys2Proof.Machine

/-! PROOFS. The encoding (30_encoding.md): `decode` said once, row by row (R84), and from it the two directions of R85,
the rows of the opcode table, the refused words (R82), the operands the assembler takes (R88), the expansions (R86) and
the packing of `frame_data` (R76). -/

namespace Sys2Proof.Machine

/-! ### What the decoder can answer -/

/-- What `decode` can answer for a word, one constructor for each row of the opcode table and one for the reserved
opcodes (R80, R81, R84). -/
inductive Reading (w : Word) : Decoded → Prop where
  | pinWrite (hop : opcodeOf w = 0x1#4) :
      Reading w (ifReservedZero (w.extractLsb' 1 27) (.pinWrite (w.getLsbD 0)))
  | delayCycles (hop : opcodeOf w = 0x2#4) : Reading w (.op (.delayCycles (w.extractLsb' 0 28).toNat))
  | sendBit (hop : opcodeOf w = 0x3#4) :
      Reading w (ifReservedZero (w.extractLsb' 1 27) (.sendBit (w.getLsbD 0)))
  | sendByte (hop : opcodeOf w = 0x4#4) :
      Reading w (ifReservedZero (w.extractLsb' 8 20) (.sendByte (w.extractLsb' 0 8)))
  | sendLed (hop : opcodeOf w = 0x5#4) :
      Reading w (ifReservedZero (w.extractLsb' 24 4)
        (.sendLed (w.extractLsb' 16 8) (w.extractLsb' 8 8) (w.extractLsb' 0 8)))
  | latch (hop : opcodeOf w = 0x6#4) : Reading w (ifReservedZero (w.extractLsb' 0 28) .latch)
  | transmitFrame (hop : opcodeOf w = 0x7#4) : Reading w (ifReservedZero (w.extractLsb' 0 28) .transmitFrame)
  | reserved (hop : opcodeOf w = 0x0#4 ∨ 0x8#4 ≤ opcodeOf w) : Reading w .reservedOpcode

/-- The reserved opcodes are those that name no operation (R81). -/
theorem reservedOpcode_iff (k : BitVec 4) : k = 0x0#4 ∨ 0x8#4 ≤ k ↔
    k ≠ 0x1#4 ∧ k ≠ 0x2#4 ∧ k ≠ 0x3#4 ∧ k ≠ 0x4#4 ∧ k ≠ 0x5#4 ∧ k ≠ 0x6#4 ∧ k ≠ 0x7#4 := by
  revert k
  decide

theorem decode_reading (w : Word) : Reading w (decode w) := by
  unfold decode
  split_ifs with h1 h2 h3 h4 h5 h6 h7
  · exact .pinWrite h1
  · exact .delayCycles h2
  · exact .sendBit h3
  · exact .sendByte h4
  · exact .sendLed h5
  · exact .latch h6
  · exact .transmitFrame h7
  · exact .reserved ((reservedOpcode_iff _).2 ⟨h1, h2, h3, h4, h5, h6, h7⟩)

@[simp] theorem ifReservedZero_ne_reservedOpcode {n : Nat} (r : BitVec n) (i : Instr) :
    ifReservedZero r i ≠ .reservedOpcode := by
  unfold ifReservedZero
  split <;> simp

@[simp] theorem ifReservedZero_eq_reservedBits {n : Nat} (r : BitVec n) (i : Instr) :
    ifReservedZero r i = .reservedBits ↔ r ≠ 0 := by
  unfold ifReservedZero
  split <;> simp_all

/-! ### A word as a number -/

theorem extractLsb'_toNat_eq (w : Word) (lo n : Nat) : (w.extractLsb' lo n).toNat = w.toNat / 2 ^ lo % 2 ^ n :=
  ((extractLsb'_eq_iff w _).1 rfl).symm

theorem getLsbD_zero_toNat (w : Word) : (w.getLsbD 0).toNat = w.toNat % 2 := by
  rw [getLsbD_zero]
  rcases Nat.mod_two_eq_zero_or_one w.toNat with h | h <;> simp [h]

/-- An opcode above `n` zero reserved bits, over `m` bits of operand: what is left of the word without its operand
bits is the opcode's. -/
theorem opcode_and_reserved_iff (w : Word) (k : BitVec 4) {m n : Nat} (hmn : m + n = 28) :
    (opcodeOf w = k ∧ w.extractLsb' m n = 0) ↔ w.toNat / 2 ^ m = k.toNat * 2 ^ n := by
  have hop : w.toNat / 2 ^ 28 = w.toNat / 2 ^ m / 2 ^ n := by
    rw [Nat.div_div_eq_div_mul, ← Nat.pow_add, hmn]
  rw [opcodeOf_eq_iff, hop, extractLsb'_eq_iff, Nat.div_mod_unique (by positivity), Nat.mul_comm, eq_comm]
  simp

/-- What an operation decoded under a format with reserved bits says of the word. -/
theorem op_of_ifReservedZero {w : Word} {k : BitVec 4} {m n : Nat} {i j : Instr} (hmn : m + n = 28)
    (hop : opcodeOf w = k) (hd : Decoded.op i = ifReservedZero (w.extractLsb' m n) j) :
    w.toNat / 2 ^ m = k.toNat * 2 ^ n ∧ j = i :=
  have ⟨hres, hij⟩ := ifReservedZero_eq_op.1 hd.symm
  ⟨(opcode_and_reserved_iff w k hmn).1 ⟨hop, hres⟩, hij⟩

/-! ### Encode and decode (R85) -/

theorem encode_delayCycles {n : Nat} (h : n < 2 ^ 28) :
    encode (.delayCycles n) = some (0x20000000#32 ||| BitVec.ofNat 32 n) := if_pos h

theorem encode_delayCycles_none {n : Nat} (h : 2 ^ 28 ≤ n) : encode (.delayCycles n) = none :=
  if_neg (Nat.not_lt.2 h)

/-- An operation has a word exactly if its operands fit. -/
theorem encode_isSome (i : Instr) : (encode i).isSome = wellFormed i := by
  cases i with
  | delayCycles n =>
    rcases Nat.lt_or_ge n (2 ^ 28) with h | h
    · simp only [encode_delayCycles h, wellFormed, h, decide_true, Option.isSome_some]
    · simp only [encode_delayCycles_none h, wellFormed, Nat.not_lt.2 h, decide_false, Option.isSome_none]
  | _ => rfl

/-- Words are compared as numbers. -/
theorem encode_eq_of_toNat {i : Instr} {v w : Word} (hv : encode i = some v) (h : v.toNat = w.toNat) :
    encode i = some w := hv.trans (congrArg some (BitVec.eq_of_toNat_eq h))

/-- A word that decodes is the word of its operation: opcode, reserved bits and operands are all of its bits. -/
theorem encode_decode {w : Word} {i : Instr} (h : decode w = .op i) : encode i = some w := by
  have hread := decode_reading w
  rw [h] at hread
  generalize hd : Decoded.op i = d at hread
  cases hread with
  | pinWrite hop =>
    obtain ⟨hw, rfl⟩ := op_of_ifReservedZero rfl hop hd
    refine encode_eq_of_toNat rfl ?_
    rw [pinWrite_word_toNat, getLsbD_zero_toNat]
    bv_omega
  | delayCycles hop =>
    cases hd
    have hw := (opcodeOf_eq_iff w _).1 hop
    refine encode_eq_of_toNat (encode_delayCycles (BitVec.isLt _)) ?_
    rw [delayCycles_word_toNat (BitVec.isLt _), operand_toNat]
    bv_omega
  | sendBit hop =>
    obtain ⟨hw, rfl⟩ := op_of_ifReservedZero rfl hop hd
    refine encode_eq_of_toNat rfl ?_
    rw [sendBit_word_toNat, getLsbD_zero_toNat]
    bv_omega
  | sendByte hop =>
    obtain ⟨hw, rfl⟩ := op_of_ifReservedZero rfl hop hd
    refine encode_eq_of_toNat rfl ?_
    rw [sendByte_word_toNat, extractLsb'_toNat_eq]
    bv_omega
  | sendLed hop =>
    obtain ⟨hw, rfl⟩ := op_of_ifReservedZero rfl hop hd
    refine encode_eq_of_toNat rfl ?_
    rw [sendLed_word_toNat, extractLsb'_toNat_eq, extractLsb'_toNat_eq, extractLsb'_toNat_eq]
    bv_omega
  | latch hop | transmitFrame hop =>
    obtain ⟨hw, rfl⟩ := op_of_ifReservedZero rfl hop hd
    exact encode_eq_of_toNat rfl (by simpa using hw.symm)
  | reserved _ => cases hd

theorem wellFormed_iff_encode {i : Instr} : wellFormed i = true ↔ ∃ w, encode i = some w := by
  rw [← encode_isSome, Option.isSome_iff_exists]

theorem Admitted.loadedCount_fits {c : Cfg} (h : Admitted c) {n : Nat} (hn : n ∈ loadedCounts c) : n < 2 ^ 28 := by
  have hc := h.constraints
  have hfits : ∀ k ∈ loadedCounts c, k ≤ maxCount := by
    simp [loadedCounts, hc.t0h_fits, hc.t0l_fits, hc.t1h_fits, hc.t1l_fits, hc.tLatch_fits]
  exact Nat.lt_of_le_pred (by decide) (hfits n hn)

theorem th_mem_loadedCounts (c : Cfg) (b : Level) : th c b ∈ loadedCounts c := by
  cases b <;> simp [th, loadedCounts]

theorem tl_mem_loadedCounts (c : Cfg) (b : Level) : tl c b ∈ loadedCounts c := by
  cases b <;> simp [tl, loadedCounts]

/-- The counts an expansion delays by are those the block loads: `TH` and `TL` of a bit, and `T_LATCH`. -/
theorem expansion_delays {c : Cfg} {F : Frame} {i : Instr} {is : List Instr} (h : expansion c F i = some is) {n : Nat}
    (hn : .delayCycles n ∈ is) : n ∈ loadedCounts c := by
  cases i with
  | pinWrite _ | delayCycles _ => cases h
  | sendBit b =>
    cases h
    obtain rfl | rfl : n = th c b ∨ n = tl c b := by simpa using hn
    · exact th_mem_loadedCounts c b
    · exact tl_mem_loadedCounts c b
  | latch =>
    cases h
    obtain rfl : n = tLatch c := by simpa using hn
    simp [loadedCounts]
  | sendByte _ | sendLed _ _ _ | transmitFrame =>
    cases h
    simp [sendLedOf] at hn

/-- Settles O1: the words are `encode` read off, the two directions of the inverse are `decode_encode` and
`encode_decode`, and the counts of an expansion are `expansion_delays`. -/
theorem encodeAndDecodeAreInverse : Obligations.EncodeAndDecodeAreInverse := by
  refine ⟨⟨fun _ => rfl, fun n hn => encode_delayCycles (by omega), fun _ => rfl, fun _ => rfl, fun _ _ _ => rfl,
    rfl, rfl⟩, ?_, ?_, fun _ hn => encode_delayCycles_none hn, ?_⟩
  · intro i hi
    obtain ⟨w, hw⟩ := wellFormed_iff_encode.1 hi
    exact ⟨w, hw, decode_encode hw⟩
  · intro w i h
    have hw := encode_decode h
    exact ⟨wellFormed_iff_encode.2 ⟨w, hw⟩, hw⟩
  · intro c F i is hA h n hn
    have hmem := expansion_delays h hn
    exact ⟨hmem, hA.loadedCount_fits hmem⟩

/-! ### The opcode table (R84) -/

/-- A row of the opcode table by its format (R78): `m` bits of operand, zeros above them, and the opcode. -/
def formatRow (mnemonic : String) (m : Nat) (opcode : BitVec 4) : OpRow :=
  ⟨mnemonic, BitVec.allOnes 32 <<< m, opcode.setWidth 32 <<< 28⟩

theorem opcodeTable_eq_formats : opcodeTable =
    [formatRow "PIN_WRITE" 1 0x1#4, formatRow "DELAY_CYCLES" 28 0x2#4, formatRow "SEND_BIT" 1 0x3#4,
      formatRow "SEND_BYTE" 8 0x4#4, formatRow "SEND_LED" 24 0x5#4, formatRow "LATCH" 0 0x6#4,
      formatRow "TRANSMIT_FRAME" 0 0x7#4] := rfl

@[simp] theorem formatRow_mnemonic (mnemonic : String) (m : Nat) (k : BitVec 4) :
    (formatRow mnemonic m k).mnemonic = mnemonic := rfl

/-- A word is of a row when it has the row's opcode and zeros in the format's reserved bits. -/
theorem hits_formatRow (mnemonic : String) {m n : Nat} (hmn : m + n = 28) (k : BitVec 4) (w : Word) :
    (formatRow mnemonic m k).hits w = decide (opcodeOf w = k ∧ w.extractLsb' m n = 0) := by
  have hmask : (w &&& BitVec.allOnes 32 <<< m).toNat = w.toNat / 2 ^ m * 2 ^ m := by
    rw [← BitVec.shiftLeft_ushiftRight, BitVec.toNat_shiftLeft, BitVec.toNat_ushiftRight, Nat.shiftLeft_eq,
      Nat.shiftRight_eq_div_pow, Nat.mod_eq_of_lt ((Nat.div_mul_le_self _ _).trans_lt w.isLt)]
  have hpattern : (k.setWidth 32 <<< 28).toNat = k.toNat * 2 ^ n * 2 ^ m := by
    have := k.isLt
    rw [Nat.mul_assoc, ← Nat.pow_add, Nat.add_comm n, hmn, BitVec.toNat_shiftLeft, BitVec.toNat_setWidth,
      Nat.shiftLeft_eq]
    omega
  rw [OpRow.hits, formatRow, beq_eq_decide, decide_eq_decide, ← BitVec.toNat_inj, hmask, hpattern,
    Nat.mul_left_inj (by positivity), opcode_and_reserved_iff w k hmn]

/-- The rows a word has to be of for an answer of the decoder. -/
def rowsOf : Decoded → List String
  | .op i => [mnemonicOf i]
  | .reservedOpcode => []
  | .reservedBits => []

theorem rowsOf_ifReservedZero {n : Nat} (r : BitVec n) (i : Instr) :
    rowsOf (ifReservedZero r i) = if r = 0 then [mnemonicOf i] else [] := by
  unfold ifReservedZero
  split <;> rfl

/-- The rows a word is of are those of the decoder's answer. -/
theorem rows_hit_eq_rowsOf (w : Word) :
    (opcodeTable.filter fun row => row.hits w).map OpRow.mnemonic = rowsOf (decode w) := by
  have hread := decode_reading w
  generalize decode w = d at hread
  rw [opcodeTable_eq_formats]
  simp only [List.filter_cons, List.filter_nil, hits_formatRow (m := 0) (n := 28) _ rfl,
    hits_formatRow (m := 1) (n := 27) _ rfl, hits_formatRow (m := 8) (n := 20) _ rfl,
    hits_formatRow (m := 24) (n := 4) _ rfl, hits_formatRow (m := 28) (n := 0) _ rfl]
  cases hread with
  | pinWrite hop | sendBit hop | sendByte hop | sendLed hop | latch hop | transmitFrame hop =>
    simp [hop, rowsOf_ifReservedZero, mnemonicOf, apply_ite (List.map OpRow.mnemonic)]
  | delayCycles hop => simp [hop, rowsOf, mnemonicOf]
  | reserved hop => simp [(reservedOpcode_iff _).1 hop, rowsOf]

/-- Settles O2: `rowsOf` is the list the statement asks for. -/
theorem decodeFollowsOpcodeTable : Obligations.DecodeFollowsOpcodeTable := rows_hit_eq_rowsOf

/-! ### Refused words (R81, R82) -/

theorem decode_eq_reservedOpcode_iff (w : Word) :
    decode w = .reservedOpcode ↔ opcodeOf w = 0x0#4 ∨ 0x8#4 ≤ opcodeOf w := by
  have hread := decode_reading w
  generalize decode w = d at hread
  cases hread with
  | pinWrite hop | delayCycles hop | sendBit hop | sendByte hop | sendLed hop | latch hop | transmitFrame hop =>
    simp [hop]
  | reserved hop => simp [hop]

theorem decode_eq_reservedBits_iff (w : Word) : decode w = .reservedBits ↔
    ((opcodeOf w = 0x1#4 ∨ opcodeOf w = 0x3#4) ∧ w.extractLsb' 1 27 ≠ 0) ∨
    (opcodeOf w = 0x4#4 ∧ w.extractLsb' 8 20 ≠ 0) ∨
    (opcodeOf w = 0x5#4 ∧ w.extractLsb' 24 4 ≠ 0) ∨
    ((opcodeOf w = 0x6#4 ∨ opcodeOf w = 0x7#4) ∧ w.extractLsb' 0 28 ≠ 0) := by
  have hread := decode_reading w
  generalize decode w = d at hread
  cases hread with
  | pinWrite hop | delayCycles hop | sendBit hop | sendByte hop | sendLed hop | latch hop | transmitFrame hop =>
    simp [hop]
  | reserved hop => simp [(reservedOpcode_iff _).1 hop]

/-- Settles O3: both refusals by the decoder's answer for each opcode, the examples by evaluation. -/
theorem reservedWordsAreRefused : Obligations.ReservedWordsAreRefused :=
  ⟨decode_eq_reservedOpcode_iff, decode_eq_reservedBits_iff, by decide, by decide⟩

/-! ### The assembler's operands (R88) -/

/-- Every operation the assembler forms has its operands in range: a count is checked, and the other operands cannot be
out of it. -/
theorem operationOf_wellFormed {m : Mnemonic} {vs : List Nat} {i : Instr} (h : operationOf m vs = some i) :
    wellFormed i = true := by
  unfold operationOf at h
  split at h
  case h_1 | h_3 | h_4 => -- one operand of one bit or one byte
    obtain ⟨_, -, rfl⟩ := Option.map_eq_some_iff.1 h
    rfl
  case h_2 n => -- DELAY_CYCLES
    split at h
    case isTrue hn =>
      cases h
      exact decide_eq_true (Nat.lt_succ_of_le hn)
    case isFalse => cases h
  case h_5 => -- SEND_LED
    obtain ⟨_, -, h⟩ := Option.bind_eq_some_iff.1 h
    obtain ⟨_, -, h⟩ := Option.bind_eq_some_iff.1 h
    obtain ⟨_, -, rfl⟩ := Option.map_eq_some_iff.1 h
    rfl
  case h_6 | h_7 => cases h; rfl -- LATCH, TRANSMIT_FRAME
  case h_8 => cases h -- a wrong number of operands

theorem map_bitOperand (f : Level → Instr) (n : Nat) : (bitOperand n).map f =
    if n = 0 then some (f false) else if n = 1 then some (f true) else none := by
  unfold bitOperand
  split_ifs <;> rfl

theorem operationOf_sendByte (n : Nat) : operationOf .sendByte [n] =
    if n ≤ 255 then some (.sendByte (BitVec.ofNat 8 n)) else none := by
  rw [operationOf, byteOperand, apply_ite (Option.map _)]
  rfl

theorem operationOf_sendLed (r g b : Nat) : operationOf .sendLed [r, g, b] =
    if r ≤ 255 ∧ g ≤ 255 ∧ b ≤ 255 then
      some (.sendLed (BitVec.ofNat 8 r) (BitVec.ofNat 8 g) (BitVec.ofNat 8 b)) else none := by
  by_cases hr : r ≤ 255
  · by_cases hg : g ≤ 255
    · by_cases hb : b ≤ 255 <;> simp [operationOf, byteOperand, hr, hg, hb]
    · simp [operationOf, byteOperand, hr, hg]
  · simp [operationOf, byteOperand, hr]

/-- Settles O5: the operations formed by `operationOf_wellFormed`, then the range of each mnemonic's operands. -/
theorem assemblerChecksOperands : Obligations.AssemblerChecksOperands :=
  ⟨fun _ _ _ h => operationOf_wellFormed h, map_bitOperand .pinWrite, fun _ => rfl, map_bitOperand .sendBit,
    operationOf_sendByte, operationOf_sendLed⟩

/-! ### The expansions (R86) -/

/-- Only the two primitives have no expansion. -/
theorem expansion_eq_none_iff (c : Cfg) (F : Frame) (i : Instr) :
    expansion c F i = none ↔ (∃ l, i = .pinWrite l) ∨ ∃ n, i = .delayCycles n := by
  cases i <;> simp [expansion]

/-- A composite operation is its expansion, run on its record; TRANSMIT_FRAME's is that of the frame it holds. -/
theorem exec_eq_execSeq_expansion {s : State} {F : Frame} {i : Instr} {is : List Instr}
    (hF : i = .transmitFrame → s.record.fb = some F ∧ F.length = s.cfg.nLeds)
    (h : expansion s.cfg F i = some is) : exec i s = execSeq is s := by
  cases i with
  | pinWrite _ | delayCycles _ => cases h
  | sendBit b => cases h; rfl
  | sendByte v => cases h; exact (execSeq_sendBits (bitsMsbFirst v) s).symm
  | sendLed r g b => cases h; exact (execSeq_sendBytes (ledBytes ⟨r, g, b⟩) s).symm
  | latch => cases h; rfl
  | transmitFrame =>
    cases h
    obtain ⟨hfb, hlen⟩ := hF rfl
    rw [exec_transmitFrame hfb hlen, frameOut_eq_symbols, execSeq_append (execSeq_sendLeds F s)]
    rfl

/-- Settles O15: by the operation (`exec_eq_execSeq_expansion`), the sequences of bytes and bits as symbols. -/
theorem compositesMeanTheirExpansion : Obligations.CompositesMeanTheirExpansion :=
  ⟨expansion_eq_none_iff, fun _ _ _ _ hF h => exec_eq_execSeq_expansion hF h⟩

/-! ### The `frame_data` port (R76) -/

@[simp] theorem unpack_length (n : Nat) (fd : BitVec (24 * n)) : (unpack n fd).length = n := by simp [unpack]

theorem unpack_getElem? {n : Nat} (fd : BitVec (24 * n)) {i : Nat} (hi : i < n) :
    (unpack n fd)[i]? = some (unpackLed fd i) := by simp [unpack, hi]

/-- Bit `k` of a field of a port is the port's bit `k` above the field's lowest. -/
theorem getLsbD_field {w : Nat} (fd : BitVec w) (lo : Nat) {k : Nat} (hk : k < 8) :
    (fd.extractLsb' lo 8).getLsbD k = fd.getLsbD (lo + k) := by
  rw [BitVec.getLsbD_extractLsb', decide_eq_true hk, Bool.true_and]

/-- Settles O25: each channel is a field of the port (`getLsbD_field`). -/
theorem unpackReadsPort : Obligations.UnpackReadsPort := fun n fd =>
  ⟨unpack_length n fd, fun i hi => ⟨unpackLed fd i, unpack_getElem? fd hi, fun _ hk =>
    ⟨getLsbD_field fd _ hk, getLsbD_field fd _ hk, getLsbD_field fd _ hk⟩⟩⟩

end Sys2Proof.Machine

/-! PROOFS. The pulse sequencer (40_pulse_sequencer.md): what PIN_WRITE and DELAY_CYCLES do (R101 to R103), that
operations run in order (R100), that of two pin writes in one cycle only the last shows (R107), and that a run of
operations leaves no cycle without a level (R108). -/

namespace Sys2Proof.Machine

/-! ### The two primitives -/

theorem exec_pinWrite (l : Level) (s : State) : exec (.pinWrite l) s = .next (withRecord s (pinWrite l s.record)) :=
  rfl

theorem exec_delayCycles (n : Nat) (s : State) : exec (.delayCycles n) s = .next (withRecord s (hold n s.record)) :=
  rfl

/-- A continued trace inside the cycles that were added. -/
theorem Continues.inside {E E' : ExecRec} {n : Nat} {f : Nat → Level} (h : Continues E E' n f) {k : Nat}
    (h1 : E.t ≤ k) (h2 : k < E'.t) : traceAt E'.trace k = some (f (k - E.t)) := by
  obtain ⟨ht, hlevels⟩ := h
  rw [hlevels, if_pos ⟨h1, ht ▸ h2⟩]

/-- Settles O8: a Hold of no cycles is the identity on the record (`hold_zero`). -/
theorem delayZeroChangesNothing : Obligations.DelayZeroChangesNothing := by
  intro s
  rw [exec_delayCycles, hold_zero, withRecord_self]

/-- Settles O7: the levels by `hold_continues`, the counts by `Admitted.loadedCount_fits`. -/
theorem delayHoldsLevel : Obligations.DelayHoldsLevel := by
  refine ⟨fun n s => ?_, fun _ hn => encode_delayCycles hn, fun _ _ hA hn => ?_⟩
  · obtain ⟨ht, hlevels⟩ := hold_continues n s.record
    exact ⟨_, exec_delayCycles n s, ⟨rfl, rfl, rfl, rfl, rfl⟩, rfl, ht, hlevels⟩
  · exact Nat.le_pred_of_lt (hA.loadedCount_fits hn)

/-- The level a PIN_WRITE sets is that of the first cycle of the Hold after it, where that has one (R101). -/
theorem traceAt_hold_pinWrite {n : Nat} (hn : 1 ≤ n) (l : Level) (E : ExecRec) :
    traceAt (hold n (pinWrite l E)).trace E.t = some l :=
  (hold_continues n (pinWrite l E)).inside (Nat.le_refl _) (Nat.lt_add_of_pos_right hn)

/-- Settles O6: the level seen by `traceAt_hold_pinWrite`. -/
theorem pinWriteSetsLevel : Obligations.PinWriteSetsLevel :=
  ⟨exec_pinWrite, fun l s _ hn => ⟨_, rfl, traceAt_hold_pinWrite hn l s.record⟩, fun _ => rfl⟩

/-! ### Sequences (R100) -/

theorem execSeq_singleton (i : Instr) : execSeq [i] = exec i := by
  funext s
  rw [execSeq]
  cases exec i s <;> rfl

/-- A concatenation that answers a next state has run its first part and then its second. -/
theorem execSeq_append_next {xs ys : List Instr} {s t : State} (h : execSeq (xs ++ ys) s = .next t) :
    ∃ u, execSeq xs s = .next u ∧ execSeq ys u = .next t := by
  induction xs generalizing s with
  | nil => exact ⟨s, rfl, h⟩
  | cons i xs ih =>
    obtain ⟨v, hi, hv⟩ := execSeq_cons_next h
    obtain ⟨u, hu, hys⟩ := ih hv
    exact ⟨u, (execSeq_cons hi xs).trans hu, hys⟩

/-- Settles O19: case by case of the first operation's outcome, and for a concatenation by `execSeq_append` and
`execSeq_append_next`. -/
theorem operationsRunInOrder : Obligations.OperationsRunInOrder := by
  refine ⟨execSeq_nil, execSeq_singleton, fun _ rest _ _ h => execSeq_cons h rest, ?_, ?_,
    fun _ ys _ => ⟨fun _ h => execSeq_append h ys, fun _ h => execSeq_append_next h⟩⟩
  · intro i rest s r h
    rw [execSeq, h]
  · intro i rest s r h
    rw [execSeq, h]

/-! ### Pin writes in one cycle (R107) -/

theorem execSeq_delayZeros {zs : List Instr} (h : ∀ z ∈ zs, z = .delayCycles 0) (s : State) :
    execSeq zs s = .next s := by
  induction zs with
  | nil => rfl
  | cons z zs ih =>
    obtain ⟨rfl, hzs⟩ := List.forall_mem_cons.1 h
    rw [execSeq_cons (delayZeroChangesNothing s), ih hzs]

/-- Settles O9: the zero delays drop out (`execSeq_delayZeros`), and the second write covers the first
(`pinWrite_pinWrite`). -/
theorem onlyLastPinWriteShows : Obligations.OnlyLastPinWriteShows := by
  refine ⟨fun s => ?_, fun a b zs s hzs => ?_⟩
  · rw [exec_pinWrite, pinWrite_same, withRecord_self]
  · rw [execSeq_cons (exec_pinWrite a s), execSeq_append (execSeq_delayZeros hzs _), execSeq_singleton,
      exec_pinWrite, exec_pinWrite, withRecord_withRecord, withRecord_record, pinWrite_pinWrite]

/-! ### A run leaves no gap (R108) -/

theorem exec_cfg {i : Instr} {s t : State} (h : exec i s = .next t) : t.cfg = s.cfg := by
  rw [(exec_onlyLine h).1, withRecord_cfg]

/-- A run of operations continues the record for the sum of their durations. -/
theorem execSeq_continues {is : List Instr} {s t : State} (hA : Admitted s.cfg) (h : execSeq is s = .next t) :
    ∃ f, Continues s.record t.record (is.map (durationOf s.cfg)).sum f := by
  induction is generalizing s with
  | nil => cases h; exact ⟨fun _ => false, Continues.refl _ _⟩
  | cons i is ih =>
    obtain ⟨u, hi, hu⟩ := execSeq_cons_next h
    have hcfg := exec_cfg hi
    obtain ⟨f, hf⟩ := exec_continues hA hi
    obtain ⟨g, hg⟩ := ih (hcfg ▸ hA) hu
    rw [hcfg] at hg
    exact ⟨_, hf.trans hg⟩

/-- A run of operations that all last `n` cycles. -/
theorem sum_durationOf_map {α : Type} {c : Cfg} (f : α → Instr) {n : Nat} (h : ∀ a, durationOf c (f a) = n)
    (xs : List α) : ((xs.map f).map (durationOf c)).sum = xs.length * n := by
  induction xs with
  | nil => simp
  | cons x xs ih => rw [List.map_cons, List.map_cons, List.sum_cons, ih, h, List.length_cons]; ring

/-- A composite operation lasts as long as its expansion (R129, R152). -/
theorem durationOf_eq_sum_expansion {c : Cfg} {F : Frame} {i : Instr} {is : List Instr} (hA : Admitted c)
    (hF : F.length = c.nLeds) (h : expansion c F i = some is) : durationOf c i = (is.map (durationOf c)).sum := by
  cases i with
  | pinWrite _ | delayCycles _ => cases h
  | sendBit b => cases h; simp [durationOf, hA.period b]
  | sendByte v => cases h; exact (sum_durationOf_map .sendBit (fun _ => rfl) (bitsMsbFirst v)).symm
  | sendLed r g b =>
    cases h
    calc 24 * tBit c = 3 * (8 * tBit c) := by ring
      _ = _ := (sum_durationOf_map .sendByte (fun _ => rfl) (ledBytes ⟨r, g, b⟩)).symm
  | latch => cases h; simp [durationOf]
  | transmitFrame =>
    cases h
    rw [List.map_append, List.sum_append, sum_durationOf_map sendLedOf (fun _ => rfl) F, hF]
    calc dFrame c = c.nLeds * (24 * tBit c) + tLatch c := by rw [dFrame]; ring

/-- Settles O18: the run's cycles by `execSeq_continues`, the composites' durations by
`durationOf_eq_sum_expansion`. -/
theorem traceHasNoGaps : Obligations.TraceHasNoGaps := by
  refine ⟨fun is s t hA h => ?_, fun _ _ _ => ⟨rfl, rfl⟩,
    fun _ _ _ _ hA hF h => durationOf_eq_sum_expansion hA hF h⟩
  obtain ⟨f, hf⟩ := execSeq_continues hA h
  exact ⟨hf.1, fun k h1 h2 => ⟨_, hf.inside h1 h2⟩, fun k hk => hf.outside hk⟩

end Sys2Proof.Machine

/-! PROOFS. The SK6812 encoder (41_sk6812_encoder.md): the line during a bit, a byte and an LED (R120, R122, R124), the
order of a frame's bits (R125), that no window is the symbol of both bits (R126), and that the reference decoder reads
back what was sent (R127, R128). -/

namespace Sys2Proof.Machine

/-! ### The windows of the symbols sent -/

/-- The line shows the symbols of `bs` in the windows of `T_BIT` cycles from cycle `w` on. -/
def ShowsSymbols (c : Cfg) (tr : Nat → Option Level) (w : Nat) (bs : List Level) : Prop :=
  ∀ ⦃q m b⦄, bs[q]? = some b → m < tBit c → tr (w + q * tBit c + m) = some (decide (m < th c b))

/-- A trace continued by a waveform shows its symbols, also where more cycles follow. -/
theorem Continues.showsSymbols {c : Cfg} (hA : Admitted c) {E E' : ExecRec} {bs : List Level} {n : Nat}
    (h : Continues E E' n (waveform c bs)) (hn : bs.length * tBit c ≤ n) :
    ShowsSymbols c (traceAt E'.trace) E.t bs :=
  fun _ _ _ hb hm => h.window hA hn hb hm

theorem symbols_showsSymbols {c : Cfg} (hA : Admitted c) (bs : List Level) (E : ExecRec) :
    ShowsSymbols c (traceAt (symbols c bs E).trace) E.t bs :=
  (symbols_continues hA bs E).showsSymbols hA le_rfl

/-- The state `t` is `s` after the symbols of `bs`: the line, the time and what is left alone. -/
structure SendsBits (s t : State) (bs : List Level) : Prop where
  onlyLine : OnlyLine s t
  pin : t.record.pin = false
  time : t.record.t = s.record.t + bs.length * tBit s.cfg
  windows : ShowsSymbols s.cfg (traceAt t.record.trace) s.record.t bs
  outside : ∀ k, k < s.record.t ∨ t.record.t ≤ k → traceAt t.record.trace k = traceAt s.record.trace k

/-- At least one symbol leaves the line low; none would leave it as it was. -/
theorem sendsBits_symbols {s : State} (hA : Admitted s.cfg) {bs : List Level} (hbs : bs ≠ []) :
    SendsBits s (withRecord s (symbols s.cfg bs s.record)) bs :=
  have h := symbols_continues hA bs s.record
  { onlyLine := ⟨rfl, rfl, rfl, rfl, symbols_fb s.cfg bs s.record⟩
    pin := symbols_pin s.cfg hbs s.record
    time := h.1
    windows := symbols_showsSymbols hA bs s.record
    outside := fun _ hk => h.outside hk }

/-! ### Bits, bytes and LEDs (R120, R122, R124) -/

theorem exec_sendBit (b : Level) (s : State) :
    exec (.sendBit b) s = .next (withRecord s (symbol s.cfg b s.record)) := rfl

theorem exec_sendByte (v : Byte) (s : State) :
    exec (.sendByte v) s = .next (withRecord s (symbols s.cfg (bitsMsbFirst v) s.record)) := rfl

/-- An LED is its three wire bytes, sent one after the other. -/
theorem exec_sendLed_eq_sendBytes (r g b : Byte) (s : State) :
    exec (.sendLed r g b) s = execSeq ((ledBytes ⟨r, g, b⟩).map .sendByte) s := by
  rw [execSeq_sendBytes]
  rfl

theorem exec_sendLed (r g b : Byte) (s : State) :
    exec (.sendLed r g b) s =
      .next (withRecord s (symbols s.cfg ((ledBytes ⟨r, g, b⟩).flatMap bitsMsbFirst) s.record)) := by
  rw [exec_sendLed_eq_sendBytes, execSeq_sendBytes, bytesOut_eq_symbols]

/-- Every cycle of the trace after one symbol. -/
theorem traceAt_symbol {c : Cfg} (hA : Admitted c) (b : Level) (E : ExecRec) (k : Nat) :
    traceAt (symbol c b E).trace k =
      if E.t ≤ k ∧ k < E.t + th c b then some true
      else if E.t + th c b ≤ k ∧ k < E.t + tBit c then some false
      else traceAt E.trace k := by
  have hp := hA.period b
  rw [(symbol_continues c b E).2, hp]
  by_cases hhigh : E.t ≤ k ∧ k < E.t + th c b
  · rw [if_pos hhigh, if_pos (by omega)]
    exact congrArg some (decide_eq_true (by omega))
  · rw [if_neg hhigh]
    by_cases hlow : E.t + th c b ≤ k ∧ k < E.t + tBit c
    · rw [if_pos hlow, if_pos (by omega)]
      exact congrArg some (decide_eq_false (by omega))
    · rw [if_neg hlow, if_neg (by omega)]

/-- Settles O10: the levels by `traceAt_symbol`; the expansion is the definition, and the level before is overwritten
(`symbol_pinWrite`). -/
theorem sendBitIsOneSymbol : Obligations.SendBitIsOneSymbol := by
  refine ⟨fun b s hA => ?_, fun _ _ => rfl, fun b s l => ?_, fun _ => rfl⟩
  · have ht := (symbol_continues s.cfg b s.record).1
    rw [hA.period b] at ht
    exact ⟨_, exec_sendBit b s, ⟨rfl, rfl, rfl, rfl, rfl⟩, rfl, ht, hA.tl_pos b, traceAt_symbol hA b s.record⟩
  · show exec (.sendBit b) (withRecord s (pinWrite l s.record)) = exec (.sendBit b) s
    rw [exec_sendBit, exec_sendBit, withRecord_withRecord, withRecord_cfg, withRecord_record, symbol_pinWrite]

/-- Settles O11: the bits of a byte most significant first (`bitsMsbFirst_getElem?`), sent by `sendsBits_symbols`. -/
theorem sendByteIsEightSymbols : Obligations.SendByteIsEightSymbols := by
  refine ⟨fun v s hA => ?_, fun v s => (execSeq_sendBits (bitsMsbFirst v) s).symm, fun _ => rfl⟩
  have h := sendsBits_symbols hA (bs := bitsMsbFirst v) (List.cons_ne_nil _ _)
  exact ⟨_, exec_sendByte v s, h.onlyLine, h.pin, h.time,
    fun _ _ hq hm => h.windows (bitsMsbFirst_getElem? v hq) hm, h.outside⟩

/-- The `q`-th bit of an LED on the wire: green, then red, then blue (R124). -/
theorem ledBits_getElem? (r g b : Byte) {q : Nat} (hq : q < 24) :
    ((ledBytes ⟨r, g, b⟩).flatMap bitsMsbFirst)[q]? =
      some ((if q < 8 then g else if q < 16 then r else b).getLsbD (7 - q % 8)) := by
  have hbyte : (ledBytes ⟨r, g, b⟩)[q / 8]? = some (if q < 8 then g else if q < 16 then r else b) := by
    by_cases hg : q < 8
    · rw [if_pos hg, show q / 8 = 0 by omega]; rfl
    · by_cases hr : q < 16
      · rw [if_neg hg, if_pos hr, show q / 8 = 1 by omega]; rfl
      · rw [if_neg hg, if_neg hr, show q / 8 = 2 by omega]; rfl
  rw [flatMap_bitsMsbFirst_getElem?, hbyte, Option.map_some]

/-- Settles O12: the bits of an LED in wire order (`ledBits_getElem?`), sent by `sendsBits_symbols`. -/
theorem sendLedSendsGreenRedBlue : Obligations.SendLedSendsGreenRedBlue := by
  refine ⟨fun r g b s hA => ?_, exec_sendLed_eq_sendBytes, fun _ _ _ => rfl⟩
  have h := sendsBits_symbols hA (bs := (ledBytes ⟨r, g, b⟩).flatMap bitsMsbFirst) (List.cons_ne_nil _ _)
  exact ⟨_, exec_sendLed r g b s, h.onlyLine, h.pin, h.time,
    fun _ _ hq hm => h.windows (ledBits_getElem? r g b hq) hm, h.outside⟩

/-! ### The bits of a frame (R125) -/

/-- There is no bit past the last of a frame. -/
theorem frameBit_lt {F : Frame} {j : Nat} {b : Level} (h : frameBit (some F) j = some b) : j < 24 * F.length := by
  by_contra hj
  have hout : F[j / 24]? = none := List.getElem?_eq_none (by omega)
  simp [frameBit, wireBit, frameRead, hout] at h

/-- The linear index of a position names that position's bit (10_state.md R36). -/
theorem frameBit_linearIndex (fb : Option Frame) (l : Nat) {ch : Fin 4} (k : Fin 8) (hc : ch.val ≤ 2) :
    frameBit fb (linearIndex l ch k) = wireBit fb l ch k := by
  have hl : linearIndex l ch k / 24 = l := by unfold linearIndex; omega
  have hch : linearIndex l ch k % 24 / 8 = ch.val := by unfold linearIndex; omega
  have hk : 7 - linearIndex l ch k % 8 = k.val := by unfold linearIndex; omega
  simp only [frameBit, hl, hch, hk]

/-- Settles O24: the formula and its inverse by arithmetic on the index, the windows by `symbols_showsSymbols` on the
frame's wire bits. -/
theorem frameBitsInWireOrder : Obligations.FrameBitsInWireOrder := by
  refine ⟨fun F j hj => ?_, fun F l _ k hc => frameBit_linearIndex (some F) l k hc, fun s F hA => ?_⟩
  · obtain ⟨b, hb⟩ := wireBit_inside (F := F) (l := j / 24) (ch := ⟨j % 24 / 8, by omega⟩) (by omega)
      (show j % 24 / 8 ≤ 2 by omega) ⟨7 - j % 8, by omega⟩
    exact ⟨b, hb, hb⟩
  · refine ⟨_, execSeq_sendLeds F s, fun j m b hb hm => ?_⟩
    rw [frameBit_eq_wireBits (frameBit_lt hb)] at hb
    exact symbols_showsSymbols hA (wireBits F) s.record hb hm

/-! ### The symbols of the two bits (R126) -/

theorem allAt_iff (tr : Nat → Option Level) (w n : Nat) (l : Level) :
    allAt tr w n l = true ↔ ∀ q, q < n → tr (w + q) = some l := by
  simp [allAt]

/-- A window is the symbol of a bit when every one of its cycles has the symbol's level. -/
theorem symbolAt_iff {c : Cfg} (hA : Admitted c) (tr : Nat → Option Level) (w : Nat) (b : Level) :
    symbolAt c tr w b = true ↔ ∀ m, m < tBit c → tr (w + m) = some (decide (m < th c b)) := by
  have hlt := hA.th_lt b
  rw [symbolAt, Bool.and_eq_true, allAt_iff, allAt_iff]
  constructor
  · rintro ⟨hhigh, hlow⟩ m hm
    by_cases h : m < th c b
    · rw [hhigh m h, decide_eq_true h]
    · rw [show w + m = w + th c b + (m - th c b) by omega, hlow _ (by omega), decide_eq_false h]
  · intro h
    refine ⟨fun q hq => ?_, fun q hq => ?_⟩
    · rw [h q (by omega), decide_eq_true hq]
    · rw [Nat.add_assoc, h _ (by omega), decide_eq_false (by omega)]

/-- A window that is the symbol of two bits is high for `TH` of both, so the bits are the same (R11). -/
theorem symbolAt_unique {c : Cfg} (hA : Admitted c) {tr : Nat → Option Level} {w : Nat} {b b' : Level}
    (h : symbolAt c tr w b = true) (h' : symbolAt c tr w b' = true) : b = b' := by
  rw [symbolAt_iff hA] at h h'
  have hsame : ∀ m, m < tBit c → (m < th c b ↔ m < th c b') := fun m hm =>
    decide_eq_decide.1 (Option.some.inj ((h m hm).symm.trans (h' m hm)))
  have hle := hsame _ (hA.th_lt b)
  have hge := hsame _ (hA.th_lt b')
  exact hA.th_inj (by omega)

/-- Settles O22. -/
theorem symbolsAreDistinct : Obligations.SymbolsAreDistinct :=
  fun _ _ _ hA ⟨h1, h0⟩ => Bool.noConfusion (symbolAt_unique hA h1 h0)

/-! ### The reference decoder (R126 to R128) -/

/-- The decoder reads a bit's symbol as that bit. -/
theorem decodeSymbol_of_symbolAt {c : Cfg} (hA : Admitted c) {tr : Nat → Option Level} {w : Nat} {b : Level}
    (h : symbolAt c tr w b = true) : decodeSymbol c tr w = some b := by
  unfold decodeSymbol
  cases b with
  | true => rw [if_pos h]
  | false => rw [if_neg fun h1 => Bool.noConfusion (symbolAt_unique hA h1 h), if_pos h]

theorem ShowsSymbols.head {c : Cfg} (hA : Admitted c) {tr : Nat → Option Level} {w : Nat} {b : Level}
    {bs : List Level} (h : ShowsSymbols c tr w (b :: bs)) : symbolAt c tr w b = true :=
  (symbolAt_iff hA tr w b).2 fun m hm => by simpa using h (q := 0) (m := m) rfl hm

theorem ShowsSymbols.drop {c : Cfg} {tr : Nat → Option Level} {w : Nat} {xs ys : List Level}
    (h : ShowsSymbols c tr w (xs ++ ys)) : ShowsSymbols c tr (w + xs.length * tBit c) ys := by
  intro q m b hb hm
  have hb' : (xs ++ ys)[xs.length + q]? = some b := by
    rw [List.getElem?_append_right (Nat.le_add_right _ _), Nat.add_sub_cancel_left, hb]
  rw [← h hb' hm]
  congr 1
  ring

theorem ShowsSymbols.take {c : Cfg} {tr : Nat → Option Level} {w : Nat} {xs ys : List Level}
    (h : ShowsSymbols c tr w (xs ++ ys)) : ShowsSymbols c tr w xs := by
  intro q m b hb hm
  have hq : q < xs.length := (List.getElem?_eq_some_iff.1 hb).1
  exact h ((List.getElem?_append_left hq).trans hb) hm

theorem decodeSymbols_of_shows {c : Cfg} (hA : Admitted c) {tr : Nat → Option Level} {w : Nat} {bs : List Level}
    (h : ShowsSymbols c tr w bs) : decodeSymbols c tr w bs.length = some bs := by
  induction bs generalizing w with
  | nil => rfl
  | cons b bs ih =>
    have hrest : ShowsSymbols c tr (w + tBit c) bs := by simpa using ShowsSymbols.drop (xs := [b]) h
    simp [decodeSymbols, decodeSymbol_of_symbolAt hA (h.head hA), ih hrest]

/-- Appending bit `k` of a byte to the bits above it. -/
theorem ushiftRight_succ_append_bit (v : Byte) (k : Nat) :
    (v >>> (k + 1)) <<< 1 ||| (BitVec.ofBool (v.getLsbD k)).setWidth 8 = v >>> k := by
  apply BitVec.eq_of_getLsbD_eq
  intro i hi
  cases i with
  | zero => simp
  | succ i => simp [hi, Nat.add_comm, Nat.add_left_comm]

/-- A byte put together again from its bits, most significant first (R126). -/
theorem byteOfBits_bitsMsbFirst (v : Byte) : byteOfBits (bitsMsbFirst v) = v := by
  have hnone : (0 : Byte) = v >>> 8 := (BitVec.ushiftRight_eq_zero le_rfl).symm
  simp only [byteOfBits, bitsMsbFirst, List.foldl]
  rw [hnone]
  simp only [ushiftRight_succ_append_bit]
  rw [BitVec.ushiftRight_zero]

/-- The decoder reads back the bytes whose bits the line shows (R127). -/
theorem decodeBytes_of_shows {c : Cfg} (hA : Admitted c) {tr : Nat → Option Level} {w : Nat} {vs : List Byte}
    (h : ShowsSymbols c tr w (vs.flatMap bitsMsbFirst)) : decodeBytes c tr w vs.length = some vs := by
  induction vs generalizing w with
  | nil => rfl
  | cons v vs ih =>
    rw [List.flatMap_cons] at h
    have hfirst : decodeSymbols c tr w 8 = some (bitsMsbFirst v) := decodeSymbols_of_shows hA h.take
    have hrest : decodeBytes c tr (w + 8 * tBit c) vs.length = some vs := ih h.drop
    simp [decodeBytes, hfirst, hrest, byteOfBits_bitsMsbFirst]

/-- Consecutive SEND_BYTEs complete and decode to the bytes. -/
theorem sendBytes_decode {s : State} (hA : Admitted s.cfg) (vs : List Byte) :
    ∃ t, execSeq (vs.map .sendByte) s = .next t ∧
      decodeBytes s.cfg (traceAt t.record.trace) s.record.t vs.length = some vs := by
  refine ⟨_, execSeq_sendBytes vs s, ?_⟩
  rw [withRecord_record, bytesOut_eq_symbols]
  exact decodeBytes_of_shows hA (symbols_showsSymbols hA _ s.record)

/-- Settles O20, by induction over the bytes (`decodeBytes_of_shows`) and over the bits of each
(`decodeSymbols_of_shows`). -/
theorem bytesDecodeBack : Obligations.BytesDecodeBack := by
  refine ⟨fun s v hA => ?_, fun _ vs hA => sendBytes_decode hA vs⟩
  rw [← execSeq_singleton]
  exact sendBytes_decode hA [v]

/-- The latch after a frame leaves the frame's symbols on the line. -/
theorem frameOut_showsSymbols {c : Cfg} (hA : Admitted c) {F : Frame} (hF : F.length = c.nLeds) (E : ExecRec) :
    ShowsSymbols c (traceAt (frameOut c F E).trace) E.t (wireBits F) :=
  (frameOut_continues hA hF E).showsSymbols hA (by rw [wireBits_length, hF, dFrame]; exact Nat.le_add_right _ _)

/-- Settles O21: an LED is three bytes (`sendBytes_decode`), a frame its wire bytes and the latch
(`frameOut_showsSymbols`). -/
theorem framesDecodeToWireBytes : Obligations.FramesDecodeToWireBytes := by
  refine ⟨fun s r g b hA => ?_, fun s F hA hfb hF => ⟨_, exec_transmitFrame hfb hF, ?_⟩⟩
  · rw [exec_sendLed_eq_sendBytes]
    exact sendBytes_decode hA (ledBytes ⟨r, g, b⟩)
  · rw [← hF, ← wireBytes_length]
    exact decodeBytes_of_shows hA (frameOut_showsSymbols hA hF s.record)

end Sys2Proof.Machine

/-! PROOFS. The frame transmitter (42_frame_transmitter.md): LATCH and TRANSMIT_FRAME (R150 to R152), the clock edge
case by case (R154 to R160, R167), and the cycles of a whole frame (R161 to R168). -/

namespace Sys2Proof.Machine

/-! ### LATCH and TRANSMIT_FRAME (R150 to R152) -/

theorem exec_latch (s : State) : exec .latch s = .next (withRecord s (latchHold s.cfg s.record)) := rfl

/-- Settles O13: the levels by `latchHold_continues`; the expansion is the definition. -/
theorem latchHoldsLow : Obligations.LatchHoldsLow := by
  refine ⟨fun s => ?_, fun _ => rfl, fun _ hA => ⟨hA.constraints.tResetMin_pos, hA.constraints.latch_long⟩, rfl⟩
  obtain ⟨ht, hlevels⟩ := latchHold_continues s.cfg s.record
  exact ⟨_, exec_latch s, ⟨rfl, rfl, rfl, rfl, rfl⟩, rfl, ht, hlevels⟩

/-- The latch after a frame is low from its first cycle to its last. -/
theorem frameOut_latch_low {c : Cfg} (hA : Admitted c) {F : Frame} (hF : F.length = c.nLeds) (E : ExecRec) {m : Nat}
    (hm : m < tLatch c) : traceAt (frameOut c F E).trace (E.t + 24 * c.nLeds * tBit c + m) = some false := by
  have h := frameOut_continues hA hF E
  have ht : (frameOut c F E).t = E.t + (24 * c.nLeds * tBit c + tLatch c) := h.1
  rw [h.inside (by omega) (by omega), waveform_past hA.tBit_pos]
  rw [wireBits_length, hF]
  omega

/-- Settles O14: the symbols by `frameOut_showsSymbols`, the latch by `frameOut_latch_low`, the rest as for every
operation (`operationsLeaveTheRest`). -/
theorem transmitFrameSendsFrame : Obligations.TransmitFrameSendsFrame := by
  refine ⟨fun s F hA hfb hF => ?_, fun s hfb => by simp [exec, execTransmitFrame, hfb], rfl⟩
  have hexec := exec_transmitFrame hfb hF
  obtain ⟨honly, -, hout⟩ := operationsLeaveTheRest _ _ _ hexec
  have ht : (frameOut s.cfg F s.record).t = s.record.t + (24 * s.cfg.nLeds * tBit s.cfg + tLatch s.cfg) :=
    (frameOut_continues hA hF s.record).1
  refine ⟨_, hexec, honly, rfl, ht.trans (Nat.add_assoc _ _ _).symm,
    exec_eq_execSeq_expansion (fun _ => ⟨hfb, hF⟩) rfl, fun j m hj hm => ?_,
    fun _ hm => frameOut_latch_low hA hF s.record hm, hout⟩
  obtain ⟨b, hb⟩ := frameBit_some hF hj
  exact ⟨b, hb, frameOut_showsSymbols hA hF s.record ((frameBit_eq_wireBits (by omega)).symm.trans hb) hm⟩

/-- How far an operation that answers a next state has moved the record. -/
theorem exec_duration {i : Instr} {s t : State} (hA : Admitted s.cfg) (h : exec i s = .next t) :
    t.record.t - s.record.t = durationOf s.cfg i := by
  obtain ⟨f, ht, -⟩ := exec_continues hA h
  rw [ht, Nat.add_sub_cancel_left]

/-- Settles O16: each duration is `durationOf` the operation, which does not read its operand. -/
theorem durationsIgnoreData : Obligations.DurationsIgnoreData :=
  ⟨fun _ _ _ hA h => exec_duration hA h, fun _ _ _ hA h => exec_duration hA h,
    fun _ _ _ _ _ hA h => exec_duration hA h, fun _ _ hA h => exec_duration hA h, rfl⟩

/-! ### The clock edge without reset, one equation a case (R155 to R159) -/

theorem beginSymbol_of_bit {fb : Option Frame} {l : Nat} {ch : Fin 4} {k : Fin 8} {b : Level} (c : Cfg)
    (hb : wireBit fb l ch k = some b) : beginSymbol c fb l ch k =
      .next { fsm := .tx, led := l, ch := ch, bit := k, phase := .hi, cnt := th c b, fb := fb, pin := true } := by
  rw [beginSymbol, hb]
  rfl

section EdgeWithoutReset
variable {c : Cfg} {σ : Block} {inp : Inputs} (hr : inp.rst = false)
include hr

theorem edge_idle_start (hf : σ.fsm = .idle) (hs : inp.start = true) :
    edge c σ inp = beginSymbol c (some (sampledFrame c inp)) 0 0 7 := by
  simp [edge, hr, hf, stepIdle, hs]

theorem edge_idle_wait (hf : σ.fsm = .idle) (hs : inp.start = false) : edge c σ inp = .next σ := by
  simp [edge, hr, hf, stepIdle, hs]

theorem edge_countDown (hf : σ.fsm ≠ .idle) (hc : 1 < σ.cnt) : edge c σ inp = .next (countDown σ) := by
  cases hs : σ.fsm
  case idle => exact absurd hs hf
  case tx => cases hφ : σ.phase <;> simp [edge, hr, hs, hφ, stepHigh, stepLow, hc]
  case latch => simp [edge, hr, hs, stepLatch, hc]

theorem edge_high_end {b : Level} (hf : σ.fsm = .tx) (hφ : σ.phase = .hi) (hc : σ.cnt ≤ 1)
    (hb : wireBit σ.fb σ.led σ.ch σ.bit = some b) :
    edge c σ inp = .next { σ with phase := .lo, cnt := tl c b, pin := false } := by
  simp [edge, hr, hf, hφ, stepHigh, Nat.not_lt.2 hc, withBit, hb]

theorem edge_last_low_end (hf : σ.fsm = .tx) (hφ : σ.phase = .lo) (hc : σ.cnt ≤ 1) (hl : isLast c σ = true) :
    edge c σ inp = .next { σ with fsm := .latch, cnt := tLatch c } := by
  simp [edge, hr, hf, hφ, stepLow, Nat.not_lt.2 hc, hl]

theorem edge_low_end {l : Nat} {ch : Fin 4} {k : Fin 8} (hf : σ.fsm = .tx) (hφ : σ.phase = .lo) (hc : σ.cnt ≤ 1)
    (hl : isLast c σ = false) (hp : nextPos σ.led σ.ch σ.bit = (l, ch, k)) :
    edge c σ inp = beginSymbol c σ.fb l ch k := by
  simp [edge, hr, hf, hφ, stepLow, Nat.not_lt.2 hc, hl, hp]

theorem edge_latch_end (hf : σ.fsm = .latch) (hc : σ.cnt ≤ 1) : edge c σ inp = .next Block.reset := by
  simp [edge, hr, hf, stepLatch, Nat.not_lt.2 hc]

end EdgeWithoutReset

/-- A ready block steps to what its edge answers. -/
theorem step_blk_of_edge {s : State} (h : ReadyForEdge s) {σ : Block}
    (he : edge s.cfg s.blk (inputsNow s) = .next σ) : ∃ t, step s = .next t ∧ t.blk = σ :=
  ⟨_, step_of_edge h he, rfl⟩

/-- The first bit of a frame on the wire: bit 7 of green of LED 0 (R56). -/
theorem wireBit_first {F : Frame} {p : ColorTriple} (h : F[0]? = some p) :
    wireBit (some F) 0 0 7 = some (p.g.getLsbD 7) := by
  simp [wireBit, frameRead, wireChannel, h]

/-- Settles O39: the edge by `edge_idle_start`, the first bit by `wireBit_first`. -/
theorem idleEdge : Obligations.IdleEdge := by
  refine ⟨fun s h hf hr hs => ?_, fun s h hf hr hs => step_blk_of_edge h (edge_idle_wait hr hf hs)⟩
  have hp := unpack_getElem? (portValue s.cfg (inputsNow s)) h.1.constraints.leds
  obtain ⟨t, hstep, ht⟩ := step_blk_of_edge h
    ((edge_idle_start hr hf hs).trans (beginSymbol_of_bit s.cfg (wireBit_first hp)))
  exact ⟨t, _, _, hstep, rfl, hp, ht⟩

/-- Settles O40: the bit of the phase is there because the block satisfies R38 (`blockWf_tx`). -/
theorem highPhaseEdge : Obligations.HighPhaseEdge := by
  refine ⟨fun s h hf _ hr hc => step_blk_of_edge h (edge_countDown hr (by simp [hf]) hc),
    fun s h hf hφ hr hc => ?_⟩
  obtain ⟨F, b, hS⟩ := blockWf_tx h.2.2 hf
  obtain ⟨t, hstep, ht⟩ := step_blk_of_edge h (edge_high_end hr hf hφ hc hS.bit)
  exact ⟨t, b, hstep, hS.bit, ht⟩

/-- Settles O41: the next bit is there because the edge answers a next state (`step_ready`). -/
theorem lowPhaseEdge : Obligations.LowPhaseEdge := by
  refine ⟨fun s h hf _ hr hc => step_blk_of_edge h (edge_countDown hr (by simp [hf]) hc),
    fun s h hf hφ hr hc hl => step_blk_of_edge h (edge_last_low_end hr hf hφ hc hl),
    fun s l ch k h hf hφ hr hc hl hp => ?_⟩
  obtain ⟨σ, he, -, hstep⟩ := step_ready h
  rw [edge_low_end hr hf hφ hc hl hp] at he
  obtain ⟨b, hb, hσ⟩ := withBit_next he
  exact ⟨_, b, hstep, hb, by simp [hσ, hf]⟩

/-- Settles O42: the two equations of the edge in `LATCH`. -/
theorem latchEdge : Obligations.LatchEdge :=
  ⟨fun _ h hf hr hc => step_blk_of_edge h (edge_countDown hr (by simp [hf]) hc),
    fun _ h hf hr hc => step_blk_of_edge h (edge_latch_end hr hf hc)⟩

/-- Settles O43, by `edge_keeps_blockWf` through `step_ready`. -/
theorem edgeIsTotal : Obligations.EdgeIsTotal := by
  intro s h
  obtain ⟨σ, -, hw, hstep⟩ := step_ready h
  exact ⟨_, hstep, hw⟩

/-! ### The position in the frame (R158) -/

theorem nextPos_bit (l : Nat) (ch : Fin 4) {k k' : Fin 8} (h : k.val = k'.val + 1) : nextPos l ch k = (l, ch, k') := by
  rw [nextPos, if_pos (by omega)]
  congr 2
  exact Fin.ext (by simp only; omega)

theorem nextPos_channel (l : Nat) {ch ch' : Fin 4} (h : ch.val = ch'.val + 1) (hc : ch.val ≤ 2) :
    nextPos l ch' 0 = (l, ch, 7) := by
  rw [nextPos, if_neg (by simp), dif_pos (by omega)]
  congr 2
  exact Fin.ext h.symm

theorem nextPos_led (l : Nat) : nextPos l 2 0 = (l + 1, 0, 7) := rfl

/-- The last position has the last linear index of the frame. -/
theorem isLast_iff_linearIndex {c : Cfg} {σ : Block} (hc : σ.ch.val ≤ 2) :
    isLast c σ = true ↔ linearIndex σ.led σ.ch σ.bit + 1 = 24 * c.nLeds := by
  rw [isLast_iff, Fin.ext_iff, Fin.ext_iff]
  show σ.led + 1 = c.nLeds ∧ σ.ch.val = 2 ∧ σ.bit.val = 0 ↔ _
  unfold linearIndex
  omega

/-- Settles O44: the cases of `NextPos` one by one, its effect by `linearIndex_nextPos`, `Last` by
`isLast_iff_linearIndex`. -/
theorem nextPositionAdvances : Obligations.NextPositionAdvances := by
  refine ⟨fun l ch _ _ h => nextPos_bit l ch h, fun l _ _ h hc => nextPos_channel l h hc, nextPos_led,
    fun l _ k hc => linearIndex_nextPos l k hc, fun c σ hN _ hc => ?_⟩
  rw [isLast_iff_linearIndex hc]
  omega

/-! ### The transitions of the state machine (R167) -/

theorem beginSymbol_fsm {c : Cfg} {fb : Option Frame} {l : Nat} {ch : Fin 4} {k : Fin 8} {σ : Block}
    (h : beginSymbol c fb l ch k = .next σ) : σ.fsm = .tx := by
  obtain ⟨b, -, rfl⟩ := withBit_next h
  rfl

/-- A change of `fsm` that an edge without reset makes, with its cause (R167). -/
inductive Transition (c : Cfg) (σ : Block) (inp : Inputs) : Fsm → Fsm → Prop where
  | stay (f : Fsm) : Transition c σ inp f f
  | accept : accepts σ inp = true → Transition c σ inp .idle .tx
  | last : isLast c σ = true → Transition c σ inp .tx .latch
  | done : σ.cnt ≤ 1 → Transition c σ inp .latch .idle

theorem edge_transition {c : Cfg} {σ σ' : Block} {inp : Inputs} (he : edge c σ inp = .next σ')
    (hr : inp.rst = false) : Transition c σ inp σ.fsm σ'.fsm := by
  obtain ⟨hr', -⟩ | ⟨-, ⟨-, -, rfl⟩ | ⟨hf, hs, hnext⟩ | ⟨-, -, rfl⟩ | ⟨-, -, -, b, -, rfl⟩ | ⟨hf, -, -, hl, rfl⟩ |
    ⟨hf, -, -, -, hnext⟩ | ⟨hf, hc, rfl⟩⟩ := edge_cases he
  · simp [hr] at hr'
  · exact .stay _
  · rw [hf, beginSymbol_fsm hnext]
    exact .accept (by simp [accepts, hr, hs, hf])
  · exact .stay _
  · exact .stay _
  · rw [hf]
    exact .last hl
  · rw [hf, beginSymbol_fsm hnext]
    exact .stay _
  · rw [hf]
    exact .done hc

/-- Settles O46, cause by cause (`edge_transition`); that the latch ends at 1 and not at 0 is R38. -/
theorem sourceTransitionsOnly : Obligations.SourceTransitionsOnly := by
  intro s t h hr hstep
  obtain ⟨σ, he, -, hs⟩ := step_ready h
  obtain rfl := Host.Outcome.next.inj (hs.symm.trans hstep)
  have hcnt : s.blk.fsm = .latch → 1 ≤ s.blk.cnt := fun hf => (blockWf_latch h.2.2 hf).cnt
  have htr := edge_transition he hr
  rw [afterEdge_blk]
  generalize s.blk.fsm = f at htr hcnt ⊢
  generalize σ.fsm = f' at htr ⊢
  cases htr with
  | stay => cases f <;> simp
  | accept ha => simp [ha]
  | last hl => simp [hl]
  | done hc => simp [Nat.le_antisymm hc (hcnt rfl)]

/-! ### The busy block reads `rst` only (R154, R163) -/

theorem busy_iff {σ : Block} : busy σ = true ↔ σ.fsm ≠ .idle := by simp [busy]

/-- Settles O47, by `edge_congr`. -/
theorem startWhileBusyIsIgnored : Obligations.StartWhileBusyIsIgnored := by
  intro s rest fd fd' h hb
  have ⟨hA, _, hw⟩ := h
  obtain ⟨σ, he, -⟩ := edge_keeps_blockWf hA (inp := ⟨false, true, fd⟩) (.inr hw)
  have hcongr : edge s.cfg s.blk ⟨false, true, fd⟩ = edge s.cfg s.blk ⟨false, false, fd'⟩ :=
    edge_congr rfl (busy_iff.1 hb)
  exact ⟨σ, step_host_cons h he rest, step_host_cons h (hcongr ▸ he) rest⟩

/-- While the block is busy, and one cycle longer, a run is also the run of any host with the same resets. -/
theorem Reaches.congr_host {s : State} {h : List Inputs} {n : Nat} (hs : ReadyForEdge s)
    (hr : ∀ k, k < n → (inputAt s k).rst = (h.getD k quietInputs).rst)
    (hb : ∀ k, k < n → Machine.busyAt s k = some true) :
    ∃ σ, Reaches s n σ ∧ Reaches { s with host := h } n σ := by
  have ⟨hA, ho, hw⟩ := hs
  induction n with
  | zero => exact ⟨s.blk, Reaches.zero s, Reaches.zero { s with host := h }⟩
  | succ n ih =>
    obtain ⟨σ, h1, h2⟩ := ih (fun k hk => hr k (by omega)) (fun k hk => hb k (by omega))
    obtain ⟨τ, h3, hwf⟩ := reaches_wf hA ho hw n
    obtain rfl := h1.unique h3
    obtain ⟨σ', he, -⟩ := edge_keeps_blockWf hA (inp := inputAt s n) (.inr hwf)
    have hbusy : busy σ = true := Option.some.inj (h1.busyAt.symm.trans (hb n (by omega)))
    have hcongr : edge s.cfg σ (inputAt s n) = edge s.cfg σ (h.getD n quietInputs) :=
      edge_congr (hr n (by omega)) (busy_iff.1 hbusy)
    exact ⟨σ', h1.succ hA ho hwf he, h2.succ hA ho hwf (hcongr.symm.trans he)⟩

/-- Settles O49, by induction over the cycles (`Reaches.congr_host`). -/
theorem busyBlockSeesOnlyReset : Obligations.BusyBlockSeesOnlyReset := by
  intro s h n hs hr hb
  obtain ⟨σ, h1, h2⟩ := Reaches.congr_host hs hr hb
  exact ⟨_, _, h1, h2, rfl⟩

/-! ### Waiting (R168) -/

/-- Settles O55, by induction over the cycles. -/
theorem idleWaits : Obligations.IdleWaits := by
  intro s n hA ho hb hq
  have hwait : Reaches s n Block.reset := by
    induction n with
    | zero => exact hb ▸ Reaches.zero s
    | succ n ih =>
      obtain ⟨hr, hs⟩ := hq n (by omega) (by omega)
      exact (ih fun k h0 hk => hq k h0 (by omega)).succ hA ho (blockWf_reset _) (edge_idle_wait hr rfl hs)
  exact ⟨_, hwait, hb.symm, rfl, rfl⟩

/-! ### The gap after the last symbol (R164) -/

/-- After the last high cycle of a frame the line is low through the low phase, the latch and one idle cycle. -/
theorem dout_low_after_last_high {s : State} {b : Level} (h : ReadyForEdge s) (hf : s.blk.fsm = .tx)
    (hφ : s.blk.phase = .hi) (hc : s.blk.cnt = 1) (hl : isLast s.cfg s.blk = true)
    (hb : wireBit s.blk.fb s.blk.led s.blk.ch s.blk.bit = some b) (hr : NoReset s (tl s.cfg b + tLatch s.cfg + 1))
    {m : Nat} (h1 : 1 ≤ m) (hm : m ≤ tl s.cfg b + tLatch s.cfg + 1) : doutAt s m = some false := by
  have ⟨hA, ho, hw⟩ := h
  have hlow : Reaches s 1 { s.blk with phase := .lo, cnt := tl s.cfg b, pin := false } :=
    (Reaches.zero s).succ hA ho hw (edge_high_end (hr 0 (by omega)) hf hφ hc.le hb)
  have hlatch := hlow.latch hA ho hw hf rfl (hA.tl_pos b) hl fun q hq => hr q (by simp only at hq; omega)
  have hdone := hlatch.done hA ho hw rfl hA.tLatch_pos fun q hq => hr q (by simp only at hq; omega)
  simp only at hlatch hdone
  by_cases hmlow : m < 1 + tl s.cfg b
  · obtain ⟨q, rfl⟩ := Nat.exists_eq_add_of_le h1
    exact (hlow.countDown hA ho hw (by simp [hf]) (by simp only; omega) fun k hk => hr k (by omega)).doutAt
  · by_cases hmlatch : m < 1 + tl s.cfg b + tLatch s.cfg
    · obtain ⟨q, rfl⟩ := Nat.exists_eq_add_of_le (Nat.not_lt.1 hmlow)
      exact (hlatch.countDown hA ho hw (by simp) (by simp only; omega) fun k hk => hr k (by omega)).doutAt
    · rw [show m = 1 + tl s.cfg b + tLatch s.cfg by omega]
      exact hdone.doutAt

/-- Settles O54: the low cycles by `dout_low_after_last_high`; the level now is that of the high phase (R38). -/
theorem lowGapBetweenFrames : Obligations.LowGapBetweenFrames := by
  intro s b h hf hφ hc hl hb hr
  obtain ⟨F, b', hS⟩ := blockWf_tx h.2.2 hf
  have hpin : dout s.blk = true := (hS.high hφ).1
  exact ⟨h.1.constraints.latch_long, hpin ▸ (Reaches.zero s).doutAt,
    fun _ h1 hm => dout_low_after_last_high h hf hφ hc hl hb hr h1 hm⟩

/-! ### The cycles of an accepted frame (R161, R162, R166) -/

/-- Every position below `n * T` lies in one of `n` windows of `T` cycles. -/
theorem exists_window {n T m : Nat} (hm : m < n * T) : ∃ j q, j < n ∧ q < T ∧ m = j * T + q :=
  ⟨m / T, m % T, Nat.div_lt_of_lt_mul (Nat.mul_comm n T ▸ hm),
    Nat.mod_lt _ (Nat.pos_of_ne_zero fun h => by simp [h] at hm), by rw [Nat.mul_comm, Nat.div_add_mod]⟩

/-- In every cycle of an accepted frame the block is busy and drives the waveform of the frame's bits. -/
theorem runs_waveform {s : State} (hA : Admitted s.cfg) (ho : s.ops = []) (hb : s.blk = Block.reset)
    (hs : (inputAt s 0).start = true) (hr : NoReset s (dFrame s.cfg + 1)) {m : Nat} (hm : m < dFrame s.cfg) :
    busyAt s (1 + m) = some true ∧
      doutAt s (1 + m) = some (waveform s.cfg (wireBits (sampledFrame s.cfg (inputAt s 0))) m) := by
  have hF : (sampledFrame s.cfg (inputAt s 0)).length = s.cfg.nLeds := sampledFrame_length _ _
  by_cases hbits : m < 24 * s.cfg.nLeds * tBit s.cfg
  · obtain ⟨j, q, hj, hq, rfl⟩ := exists_window hbits
    obtain ⟨b, σ, hbit, hR, hfsm, hpin⟩ := runs_symbol_cycles hA ho hb hs hr hj hq
    rw [frameBit_eq_wireBits (by omega)] at hbit
    rw [← Nat.add_assoc, hR.busyAt, hR.doutAt, waveform_window hA.tBit_pos hbit hq, dout, hpin]
    exact ⟨congrArg some (busy_iff.2 (by simp [hfsm])), rfl⟩
  · obtain ⟨q, rfl⟩ := Nat.exists_eq_add_of_le (Nat.not_lt.1 hbits)
    obtain ⟨σ, hR, hfsm, hpin⟩ := runs_latch hA ho hb hs hr (Nat.lt_of_add_lt_add_left hm)
    rw [← Nat.add_assoc, hR.busyAt, hR.doutAt,
      waveform_past hA.tBit_pos _ (by rw [wireBits_length, hF]; exact Nat.le_add_right _ _), dout, hpin]
    exact ⟨congrArg some (busy_iff.2 (by simp [hfsm])), rfl⟩

/-- An accepted frame begins its first symbol, a high cycle that holds the frame of the port (R155). -/
theorem Reaches.accept_start {s : State} {k : Nat} (h : Reaches s k Block.reset) (hA : Admitted s.cfg)
    (ho : s.ops = []) (hr : (inputAt s k).rst = false) (hs : (inputAt s k).start = true) :
    ∃ b, Reaches s (k + 1) (symbolStart s.cfg (sampledFrame s.cfg (inputAt s k)) 0 b) := by
  have hleds := hA.constraints.leds
  obtain ⟨b, hb⟩ := frameBit_some (sampledFrame_length s.cfg (inputAt s k)) (j := 0) (by omega)
  exact ⟨b, h.accepted hA ho hr hs hb⟩

/-- Settles O51: machine and operation both give the waveform of the frame's bits (`runs_waveform`,
`frameOut_continues`). -/
theorem machineAgreesWithOperations : Obligations.MachineAgreesWithOperations := by
  intro s a hA ho hb hs hr
  have hF : (sampledFrame s.cfg (inputAt s 0)).length = s.cfg.nLeds := sampledFrame_length _ _
  refine ⟨_, exec_transmitFrame rfl hF, fun m hm => ?_, _, runs_frame hA ho hb hs hr, rfl, rfl, rfl⟩
  obtain ⟨hbusy, hdout⟩ := runs_waveform hA ho hb hs hr hm
  refine ⟨hbusy, _, hdout, ?_⟩
  have h := frameOut_continues hA hF
    { pin := false, t := a + 1, trace := [], fb := some (sampledFrame s.cfg (inputAt s 0)) }
  rw [withRecord_record, h.inside (by simp only; omega) (by rw [h.1]; simp only; omega), Nat.add_sub_cancel_left]

/-- Settles O52: the symbols by `runs_symbol_cycles`, the latch by `runs_latch`, the first idle cycle by `runs_frame`,
where a second frame is accepted. -/
theorem frameTimeline : Obligations.FrameTimeline := by
  intro s hA ho hb hs hr
  have h0 : Reaches s 0 Block.reset := hb ▸ Reaches.zero s
  have hend := runs_frame hA ho hb hs hr
  refine ⟨⟨h0.busyAt, h0.doutAt⟩, fun j m hj hm => ?_, fun m hm => ?_, ⟨_, hend, rfl, rfl⟩, fun hr' hs' => ?_⟩
  · obtain ⟨b, σ, hbit, hR, hfsm, hpin⟩ := runs_symbol_cycles hA ho hb hs hr hj hm
    exact ⟨b, hbit, hR.busyAt.trans (congrArg some (busy_iff.2 (by simp [hfsm]))), hpin ▸ hR.doutAt⟩
  · obtain ⟨σ, hR, hfsm, hpin⟩ := runs_latch hA ho hb hs hr hm
    exact ⟨_, hR, hfsm, busy_iff.2 (by simp [atCycle, hfsm]), hpin⟩
  · obtain ⟨b, hnext⟩ := hend.accept_start hA ho hr' hs'
    rw [show 2 + dFrame s.cfg = 1 + dFrame s.cfg + 1 by omega]
    exact hnext.doutAt

/-- Settles O53: both frames are the waveform of the same bits (`runs_waveform`). -/
theorem sameFrameSameWaveform : Obligations.SameFrameSameWaveform := by
  intro s s' hA hcfg ho ho' hb hb' hs hs' hport hr hr' m hm
  have hF : sampledFrame s.cfg (inputAt s 0) = sampledFrame s.cfg (inputAt s' 0) := congrArg (unpack s.cfg.nLeds) hport
  have h := (runs_waveform hA ho hb hs hr hm).2
  have h' := (runs_waveform (s := s') (hcfg ▸ hA) ho' hb' hs' (hcfg ▸ hr') (hcfg ▸ hm)).2
  rw [hcfg, ← hF] at h'
  exact ⟨_, h, h'⟩

/-- Settles O56: the block is idle again after the first frame (`runs_frame`), and accepts there. -/
theorem heldStartSendsFramesBackToBack : Obligations.HeldStartSendsFramesBackToBack := by
  intro s hA ho hb hr hs
  have h0 : Reaches s 0 Block.reset := hb ▸ Reaches.zero s
  have hend := runs_frame hA ho hb (hs 0 (by omega)) fun k hk => hr k (by omega)
  rw [Nat.add_comm] at hend
  obtain ⟨b, hfirst⟩ := h0.accept_start hA ho (hr 0 (by omega)) (hs 0 (by omega))
  obtain ⟨b', hsecond⟩ := hend.accept_start hA ho (hr _ (by omega)) (hs _ (by omega))
  exact ⟨_, _, hfirst, rfl, hsecond, rfl, rfl⟩

end Sys2Proof.Machine

/-! PROOFS. Exceptions (60_exceptions.md): a refused word refuses the whole run (R204), what a configuration and a block
state are refused for (R205), the one fault (R206) and the events of one cycle that exclude each other (R209). -/

namespace Sys2Proof.Machine

/-! ### Refused words (R204) -/

/-- A run of words is refused for the reason of the first word refused. -/
theorem runRefusal_first {pre post : List Word} {w : Word} {r : Refusal} (hpre : ∀ w' ∈ pre, ∃ j, decode w' = .op j)
    (hw : wordRefusal w = some r) : runRefusal (pre ++ w :: post) = some r := by
  have hnone : pre.findSome? wordRefusal = none := runRefusal_none.2 hpre
  simp [runRefusal, List.findSome?_append, hnone, hw]

theorem step_refused_of_runRefusal {s : State} {r : Refusal} (hA : Admitted s.cfg) (h : runRefusal s.ops = some r) :
    step s = .refused r := by
  simp [step, hA, fetch, h]

/-- Settles O27: the reason is the first refused word's (`runRefusal_first`). -/
theorem refusedWordRefusesRun : Obligations.RefusedWordRefusesRun := by
  intro s pre w post hA ho hpre
  have hrefused {r : Refusal} (hw : wordRefusal w = some r) : step s = .refused r :=
    step_refused_of_runRefusal hA (ho ▸ runRefusal_first hpre hw)
  exact ⟨fun hd => hrefused (by simp [wordRefusal, hd]), fun hd => hrefused (by simp [wordRefusal, hd])⟩

/-! ### Refused configurations (R205) -/

theorem admitted_iff_constraints {c : Cfg} : Admitted c ↔ Constraints c :=
  ⟨Admitted.constraints, Constraints.admitted⟩

/-- The constraint whose breach a reason names; a reason that is no configuration's names none (R205). -/
def NamesBreach (c : Cfg) : Refusal → Prop
  | .bitPeriodUnequal => c.t0h + c.t0l ≠ c.t1h + c.t1l
  | .zeroDuration => c.t0h = 0 ∨ c.t0l = 0 ∨ c.t1h = 0 ∨ c.t1l = 0 ∨ c.latchMs = 0 ∨ c.tResetMin = 0
  | .countTooWide => 2 ^ 28 ≤ c.t0h ∨ 2 ^ 28 ≤ c.t0l ∨ 2 ^ 28 ≤ c.t1h ∨ 2 ^ 28 ≤ c.t1l ∨ 2 ^ 28 ≤ tLatch c
  | .symbolsIndistinct => c.t0h = c.t1h
  | .latchTooShort => tLatch c < c.tResetMin
  | .noLeds => c.nLeds = 0
  | .clockNotMsMultiple => c.fClk % 1000 ≠ 0
  | .notModelled _ | .reservedOpcode | .reservedBits | .illFormedState => False

/-- A configuration is refused for a constraint that it breaks, check by check. -/
theorem cfgRefusal_namesBreach {c : Cfg} {r : Refusal} (h : cfgRefusal c = some r) : NamesBreach c r := by
  unfold cfgRefusal at h
  split at h
  next hperiod => cases h; exact hperiod
  split at h
  next hzero => cases h; simpa [NamesBreach, eq_comm] using hzero
  split at h
  next hwide => cases h; simpa [NamesBreach, loadedCounts, maxCount, wCnt, Nat.lt_iff_add_one_le] using hwide
  split at h
  next hsame => cases h; exact hsame
  split at h
  next hshort => cases h; exact hshort
  split at h
  next hleds => cases h; exact hleds
  split at h
  next hclock => cases h; exact hclock
  cases h

/-- The seven reasons of R205 are the ones that name a constraint. -/
theorem NamesBreach.mem_reasons {c : Cfg} {r : Refusal} (h : NamesBreach c r) :
    r ∈ [Refusal.bitPeriodUnequal, .zeroDuration, .countTooWide, .symbolsIndistinct, .latchTooShort, .noLeds,
      .clockNotMsMultiple] := by
  cases r with
  | notModelled _ | reservedOpcode | reservedBits | illFormedState => exact h.elim
  | _ => simp

theorem step_refused_of_cfg {s : State} {r : Refusal} (h : cfgRefusal s.cfg = some r) : step s = .refused r := by
  simp [step, h]

theorem le_maxCount_iff {n : Nat} : n ≤ maxCount ↔ n < 2 ^ 28 := Nat.lt_succ_iff.symm

/-- Settles O31: the constraints by `Constraints`, the reasons by `cfgRefusal_namesBreach`. -/
theorem configurationConstraints : Obligations.ConfigurationConstraints := by
  refine ⟨fun c => ?_, fun _ _ => step_refused_of_cfg, fun _ _ h => (cfgRefusal_namesBreach h).mem_reasons,
    fun _ => cfgRefusal_namesBreach, fun _ => cfgRefusal_namesBreach, fun _ => cfgRefusal_namesBreach,
    fun _ => cfgRefusal_namesBreach, fun _ => cfgRefusal_namesBreach, fun _ => cfgRefusal_namesBreach,
    fun _ => cfgRefusal_namesBreach⟩
  simp only [← le_maxCount_iff]
  rw [admitted_iff_constraints]
  constructor
  · intro h
    exact ⟨h.period, ⟨h.t0h_pos, h.t0l_pos, h.t1h_pos, h.t1l_pos, h.latchMs_pos, h.tResetMin_pos⟩,
      ⟨h.t0h_fits, h.t0l_fits, h.t1h_fits, h.t1l_fits, h.tLatch_fits⟩, h.distinct, h.latch_long, h.leds, h.clock⟩
  · rintro ⟨period, ⟨t0h, t0l, t1h, t1l, latchMs, tResetMin⟩, ⟨fit0h, fit0l, fit1h, fit1l, fitLatch⟩, distinct, long,
      leds, clock⟩
    exact ⟨period, t0h, t0l, t1h, t1l, latchMs, tResetMin, fit0h, fit0l, fit1h, fit1l, fitLatch, distinct, long,
      leds, clock⟩

/-! ### Ill-formed states (R205) -/

theorem clockEdge_illFormed {s : State} (hr : (inputsNow s).rst = false) (hw : blockWf s.cfg s.blk = false) :
    clockEdge s = .refused .illFormedState := by
  simp [clockEdge, hr, hw]

/-- TRANSMIT_FRAME of a record whose frame is no frame of this configuration. -/
theorem exec_transmitFrame_illFormed {s : State} {F : Frame} (hfb : s.record.fb = some F)
    (hF : F.length ≠ s.cfg.nLeds) : exec .transmitFrame s = .refused .illFormedState := by
  simp [exec, execTransmitFrame, hfb, hF]

/-- Settles O32. -/
theorem illFormedStateIsRefused : Obligations.IllFormedStateIsRefused :=
  ⟨fun _ hA ho hr hw => (step_edge hA ho).trans (clockEdge_illFormed hr hw),
    fun _ _ hfb hF => exec_transmitFrame_illFormed hfb hF⟩

/-! ### The one fault (R206) -/

/-- No clock edge of an admitted configuration faults: from a state that satisfies R38, or with reset, it answers a
next state, and from any other it is refused. -/
theorem clockEdge_ne_fault {s : State} (hA : Admitted s.cfg) (r : Fault) : clockEdge s ≠ .fault r := by
  by_cases hw : (inputsNow s).rst = true ∨ blockWf s.cfg s.blk = true
  · obtain ⟨σ, he, -⟩ := edge_keeps_blockWf hA hw
    simp [clockEdge_of_edge hw he]
  · obtain ⟨hr, hb⟩ := not_or.1 hw
    simp [clockEdge_illFormed (Bool.eq_false_of_not_eq_true hr) (Bool.eq_false_of_not_eq_true hb)]

theorem exec_transmitFrame_noFrame {s : State} (hfb : s.record.fb = none) :
    exec .transmitFrame s = .fault .frameReadNone := by
  simp [exec, execTransmitFrame, hfb]

/-- What a step that faults has run. -/
theorem step_fault {s : State} {r : Fault} (h : step s = .fault r) :
    s.record.fb = none ∧ ∃ w rest, s.ops = w :: rest ∧ decode w = .op .transmitFrame := by
  unfold step at h
  split at h
  · cases h
  next hA =>
  split at h
  · exact absurd h (clockEdge_ne_fault hA r)
  · next i rest hf =>
    obtain ⟨w, ho, hd, -⟩ := fetch_eq_op hf
    obtain ⟨rfl, hfb⟩ := exec_fault h
    exact ⟨hfb, w, rest, ho, hd⟩
  · cases h

/-- Settles O33: one direction by `step_fault`, the other by `exec_transmitFrame_noFrame`. -/
theorem faultsOnlyWithoutFrame : Obligations.FaultsOnlyWithoutFrame := by
  refine ⟨fun s r h => ⟨?_, step_fault h⟩, fun s w rest hA ho hd hrest hfb => ?_⟩
  · cases r
    rfl
  · exact (step_op hA ho hd hrest).trans (exec_transmitFrame_noFrame hfb)

/-! ### Events in one cycle (R209) -/

/-- Settles O38: the edge with reset (`step_of_rst`), and the last edge of the latch (`edge_latch_end`), neither of which
reads `start`. -/
theorem simultaneousEvents : Obligations.SimultaneousEvents :=
  ⟨fun _ _ ⟨hA, ho, _⟩ hi => ⟨_, step_of_rst hA ho (by rw [hi]), rfl⟩,
    fun _ _ h hi hf hc => step_blk_of_edge h (edge_latch_end (by rw [hi]) hf (by omega))⟩

end Sys2Proof.Machine

/-! PROOFS. Reset (70_reset_and_hazards.md): one cycle of `rst` leads to `ResetState` from any block state (R230), and
the block stays there for as long as it accepts no start, so in a longer reset (R231) and in the wait after one (R234). -/

namespace Sys2Proof.Machine

/-- The first cycle of a reset, from any block state (R230). -/
theorem Reaches.one_of_rst {s : State} (hA : Admitted s.cfg) (ho : s.ops = []) (hr : (inputAt s 0).rst = true) :
    Reaches s 1 Block.reset := by
  rw [Reaches, stateAfter_succ_of_step (step_of_rst hA ho (by rwa [inputsNow_eq])), stateAfter_zero]
  simp [atCycle, afterEdge]

/-- In `ResetState` an edge that accepts no start changes nothing (R153, R155). -/
theorem edge_reset_of_not_accepts {inp : Inputs} (c : Cfg) (hacc : accepts Block.reset inp = false) :
    edge c Block.reset inp = .next Block.reset := by
  cases hr : inp.rst with
  | true => simp [edge, hr]
  | false => exact edge_idle_wait hr rfl (start_false_of_not_accepts hacc hr rfl)

/-- The block stays in `ResetState` while no start is accepted. -/
theorem Reaches.stays_reset {s : State} {a : Nat} (h : Reaches s a Block.reset) (hA : Admitted s.cfg)
    (ho : s.ops = []) {n : Nat} (hacc : ∀ k, a ≤ k → k < a + n → accepts Block.reset (inputAt s k) = false) :
    Reaches s (a + n) Block.reset := by
  induction n with
  | zero => exact h
  | succ n ih =>
    have hn : Reaches s (a + n) Block.reset := ih fun k ha hk => hacc k ha (by omega)
    exact hn.succ hA ho (blockWf_reset _) (edge_reset_of_not_accepts _ (hacc _ (by omega) (by omega)))

/-- Settles O35, by `step_of_rst`. -/
theorem resetFromAnyState : Obligations.ResetFromAnyState :=
  fun _ _ _ hA ho hi => step_of_rst hA ho (by rw [hi])

/-- Settles O36: the first cycle by `Reaches.one_of_rst`; in every later one `rst` keeps a start from being accepted. -/
theorem resetHolds : Obligations.ResetHolds := by
  refine fun s n hA ho hr => ⟨fun k h1 hk => ?_, (Reaches.zero s).busyAt, (Reaches.zero s).doutAt⟩
  obtain ⟨m, rfl⟩ := Nat.exists_eq_add_of_le h1
  have hreset : Reaches s (1 + m) Block.reset :=
    (Reaches.one_of_rst hA ho (hr 0 (by omega))).stays_reset hA ho fun q _ hq => by
      simp [accepts, hr q (by omega)]
  exact ⟨_, hreset, rfl, hreset.busyAt, hreset.doutAt⟩

/-- Settles O37: the reset leads to `ResetState`, and the waiting host asks for no start that could be accepted. -/
theorem waitAfterResetIsLow : Obligations.WaitAfterResetIsLow := by
  rintro s hA ho ⟨hr, hquiet⟩ m hm
  have hreset : Reaches s (1 + m) Block.reset :=
    (Reaches.one_of_rst hA ho hr).stays_reset hA ho fun q h1 hq => by
      simp [accepts, (hquiet q h1 (by omega)).2]
  exact hreset.doutAt

end Sys2Proof.Machine

/-! PROOFS. The words of the test vectors (95_test_vectors.md V-E1 to V-E24), read off the encoding (30_encoding.md). -/

namespace Sys2Proof.Machine

/-- Settles O4: the seven operations encode to these words, so the words decode to them (R85, `decode_encode`); the
other two meet the conditions of the two refusals (R81, R82), a nonzero reserved bit and an opcode above 0x7. -/
theorem vectorWordsDecode : Obligations.VectorWordsDecode := by
  refine ⟨decode_encode rfl, decode_encode rfl, decode_encode rfl, decode_encode rfl, decode_encode rfl,
    decode_encode rfl, decode_encode rfl, ?reservedBits, ?reservedOpcode⟩
  case reservedBits => exact (decode_eq_reservedBits_iff _).2 (.inl (by decide))
  case reservedOpcode => exact (decode_eq_reservedOpcode_iff _).2 (.inr (by decide))

end Sys2Proof.Machine
